-- ==== Sys2Proof/Word.lean ====
section
/-! DEFINITION. The words of the machine: their widths (00_scope.md R4, R6), and nothing else. -/

namespace Sys2Proof

/-- An 8-bit value: a general register, a timer, a byte of ram, the immediate nn (R4, R64). -/
abbrev Byte := BitVec 8

/-- A 16-bit value: pc, i, ir, a return address, an instruction word (R4, R60). -/
abbrev Word := BitVec 16

/-- A register index, the field x or y: 0x0 is v0, 0xF is vF (10_state.md R20). -/
abbrev Reg := BitVec 4

/-- The immediate n, an unsigned 4-bit count (30_encoding.md R64). -/
abbrev Nibble := BitVec 4

/-- The immediate nnn, an unsigned 12-bit value (30_encoding.md R64). -/
abbrev Addr := BitVec 12

end Sys2Proof
end

