-- ==== Sys2Proof/Syntax.lean ====
section
/-! DEFINITION. The instruction set: one constructor per row of spec/opcode_table.json, in the table's order,
its arguments the fields of that row (30_encoding.md R62, R66). -/

namespace Sys2Proof

/-- The 34 instructions (30_encoding.md R66). The operands stand in the order of the fields in the word: x, then y
or nn, then n (R71). SHR and SHL carry their four ignored bits y, so that every decodable word has one instruction
and every instruction one word; no meaning reads them (R68). -/
inductive Instr where
  /-- CLR: clear the framebuffer (R140). -/
  | clr
  /-- RTS: return from subroutine (R100). -/
  | rts
  /-- JUMP nnn (R101). -/
  | jump (nnn : Addr)
  /-- CALL nnn (R102). -/
  | call (nnn : Addr)
  /-- SKE vx,nn: skip if equal to the immediate (R103). -/
  | ske (x : Reg) (nn : Byte)
  /-- SKNE vx,nn: skip if different from the immediate (R104). -/
  | skne (x : Reg) (nn : Byte)
  /-- SKRE vx,vy: skip if the registers are equal (R105). -/
  | skre (x y : Reg)
  /-- SKRNE vx,vy: skip if the registers differ (R106). -/
  | skrne (x y : Reg)
  /-- LOAD vx,nn: load immediate (R110). -/
  | load (x : Reg) (nn : Byte)
  /-- ADD vx,nn: add immediate, no flag (R111). -/
  | add (x : Reg) (nn : Byte)
  /-- MOVE vx,vy: copy register (R112). -/
  | move (x y : Reg)
  /-- OR vx,vy (R113). -/
  | or (x y : Reg)
  /-- AND vx,vy (R114). -/
  | and (x y : Reg)
  /-- XOR vx,vy (R115). -/
  | xor (x y : Reg)
  /-- ADDR vx,vy: add with carry out (R116). -/
  | addr (x y : Reg)
  /-- SUB vx,vy: subtract vy from vx (R117). -/
  | sub (x y : Reg)
  /-- SUBN vx,vy: subtract vx from vy (R118). -/
  | subn (x y : Reg)
  /-- SHR vx: shift right one bit; y is ignored (R119). -/
  | shr (x y : Reg)
  /-- SHL vx: shift left one bit; y is ignored (R120). -/
  | shl (x y : Reg)
  /-- LOADI nnn: load the index register (R130). -/
  | loadi (nnn : Addr)
  /-- JUMPI nnn: jump to nnn plus v0 (R107). -/
  | jumpi (nnn : Addr)
  /-- RAND vx,nn: masked random byte (R121). -/
  | rand (x : Reg) (nn : Byte)
  /-- DRAW vx,vy,n: composite a sprite (R141). -/
  | draw (x y : Reg) (n : Nibble)
  /-- SKP vx: skip if the key is pressed (R150). -/
  | skp (x : Reg)
  /-- SKNP vx: skip if the key is not pressed (R151). -/
  | sknp (x : Reg)
  /-- MOVED vx: read the delay timer (R153). -/
  | moved (x : Reg)
  /-- KEYD vx: wait for a key by retrying (R152). -/
  | keyd (x : Reg)
  /-- LOADD vx: set the delay timer (R154). -/
  | loadd (x : Reg)
  /-- LOADS vx: set the sound timer (R155). -/
  | loads (x : Reg)
  /-- ADDI vx: add a register to the index register (R131). -/
  | addi (x : Reg)
  /-- LDSPR vx: point i at a font glyph (R132). -/
  | ldspr (x : Reg)
  /-- BCD vx: store three decimal digits (R133). -/
  | bcd (x : Reg)
  /-- STOR vx: store v0 to v(x-1) (R134). -/
  | stor (x : Reg)
  /-- READ vx: load v0 to vx (R135). -/
  | read (x : Reg)
  deriving DecidableEq, Repr

end Sys2Proof
end

