-- ==== Sys2Proof/Decode.lean ====
section
/-! DEFINITION. Decoding, total on every word and every list of bytes, rejecting by name (30_encoding.md R60 to R68),
and the encoder written from the same table (R66). -/

namespace Sys2Proof

/-- Why bytes are not an instruction: the two causes of a decode fault (60_exceptions.md R160, codes 1 and 2). -/
inductive DecodeError where
  /-- Fewer than two bytes (20_memory.md R48). Raised by `decode`. Safe. -/
  | insufficientBytes
  /-- A word that selects no row of R66 (R67). Raised by `decodeWord`. Safe. -/
  | unknownInstruction (w : Word)
  deriving DecidableEq, Repr

/-! ## The fields of a word (R61) -/

/-- group = w[15:12], "top nibble, selects instruction family". -/
def fieldGroup (w : Word) : BitVec 4 := w.extractLsb' 12 4
/-- x = w[11:8]. -/
def fieldX (w : Word) : Reg := w.extractLsb' 8 4
/-- y = w[7:4] (decision D2, log 10). -/
def fieldY (w : Word) : Reg := w.extractLsb' 4 4
/-- n = w[3:0] (decision D2, log 10). -/
def fieldN (w : Word) : Nibble := w.extractLsb' 0 4
/-- nn = w[7:0]. -/
def fieldNN (w : Word) : Byte := w.extractLsb' 0 8
/-- nnn = w[11:0]. -/
def fieldNNN (w : Word) : Addr := w.extractLsb' 0 12

/-- The word of two bytes: the byte at the lower address is the high byte (20_memory.md R42). -/
def wordOfBytes (b0 b1 : Byte) : Word := b0.setWidth 16 <<< 8 ||| b1.setWidth 16
/-- The high byte of a word, which stands at the lower address (R42). -/
def highByte (w : Word) : Byte := w.extractLsb' 8 8
/-- The low byte of a word (R42). -/
def lowByte (w : Word) : Byte := w.extractLsb' 0 8

/-! ## The decoder (R65) -/

/-- The decode procedure of R65: by group, then by the sub-selector n or nn; every other word is unknown. -/
def decodeWord (w : Word) : Except DecodeError Instr :=
  match fieldGroup w with
  | 0x0#4 =>
    if w = 0x00E0#16 then .ok .clr
    else if w = 0x00EE#16 then .ok .rts
    else .error (.unknownInstruction w)
  | 0x1#4 => .ok (.jump (fieldNNN w))
  | 0x2#4 => .ok (.call (fieldNNN w))
  | 0x3#4 => .ok (.ske (fieldX w) (fieldNN w))
  | 0x4#4 => .ok (.skne (fieldX w) (fieldNN w))
  | 0x5#4 => if fieldN w = 0x0#4 then .ok (.skre (fieldX w) (fieldY w)) else .error (.unknownInstruction w)
  | 0x6#4 => .ok (.load (fieldX w) (fieldNN w))
  | 0x7#4 => .ok (.add (fieldX w) (fieldNN w))
  | 0x8#4 =>
    match fieldN w with
    | 0x0#4 => .ok (.move (fieldX w) (fieldY w))
    | 0x1#4 => .ok (.or (fieldX w) (fieldY w))
    | 0x2#4 => .ok (.and (fieldX w) (fieldY w))
    | 0x3#4 => .ok (.xor (fieldX w) (fieldY w))
    | 0x4#4 => .ok (.addr (fieldX w) (fieldY w))
    | 0x5#4 => .ok (.sub (fieldX w) (fieldY w))
    | 0x6#4 => .ok (.shr (fieldX w) (fieldY w))
    | 0x7#4 => .ok (.subn (fieldX w) (fieldY w))
    | 0xE#4 => .ok (.shl (fieldX w) (fieldY w))
    | _ => .error (.unknownInstruction w)
  | 0x9#4 => if fieldN w = 0x0#4 then .ok (.skrne (fieldX w) (fieldY w)) else .error (.unknownInstruction w)
  | 0xA#4 => .ok (.loadi (fieldNNN w))
  | 0xB#4 => .ok (.jumpi (fieldNNN w))
  | 0xC#4 => .ok (.rand (fieldX w) (fieldNN w))
  | 0xD#4 => .ok (.draw (fieldX w) (fieldY w) (fieldN w))
  | 0xE#4 =>
    match fieldNN w with
    | 0x9E#8 => .ok (.skp (fieldX w))
    | 0xA1#8 => .ok (.sknp (fieldX w))
    | _ => .error (.unknownInstruction w)
  | 0xF#4 =>
    match fieldNN w with
    | 0x07#8 => .ok (.moved (fieldX w))
    | 0x0A#8 => .ok (.keyd (fieldX w))
    | 0x15#8 => .ok (.loadd (fieldX w))
    | 0x18#8 => .ok (.loads (fieldX w))
    | 0x1E#8 => .ok (.addi (fieldX w))
    | 0x29#8 => .ok (.ldspr (fieldX w))
    | 0x33#8 => .ok (.bcd (fieldX w))
    | 0x55#8 => .ok (.stor (fieldX w))
    | 0x65#8 => .ok (.read (fieldX w))
    | _ => .error (.unknownInstruction w)
  | _ => .error (.unknownInstruction w)

/-- Decode the first instruction of a list of bytes, and give the bytes after it: every instruction is exactly two
bytes (R60); fewer than two are the distinct condition "insufficient bytes" (R48). -/
def decode : List Byte → Except DecodeError (Instr × List Byte)
  | [] => .error .insufficientBytes
  | [_] => .error .insufficientBytes
  | b0 :: b1 :: rest =>
    match decodeWord (wordOfBytes b0 b1) with
    | .ok i => .ok (i, rest)
    | .error e => .error e

/-! ## The encoder (R61, R62, R66) -/

/-- Field x at w[11:8]. -/
def atX (x : Reg) : Word := x.setWidth 16 <<< 8
/-- Field y at w[7:4]. -/
def atY (y : Reg) : Word := y.setWidth 16 <<< 4
/-- Field n at w[3:0]. -/
def atN (n : Nibble) : Word := n.setWidth 16
/-- Field nn at w[7:0]. -/
def atNN (nn : Byte) : Word := nn.setWidth 16
/-- Field nnn at w[11:0]. -/
def atNNN (nnn : Addr) : Word := nnn.setWidth 16

/-- The word of each instruction: the fixed bits of its row in R66 with its operands in their fields. -/
def encode : Instr → Word
  | .clr => 0x00E0#16
  | .rts => 0x00EE#16
  | .jump nnn => 0x1000#16 ||| atNNN nnn
  | .call nnn => 0x2000#16 ||| atNNN nnn
  | .ske x nn => 0x3000#16 ||| atX x ||| atNN nn
  | .skne x nn => 0x4000#16 ||| atX x ||| atNN nn
  | .skre x y => 0x5000#16 ||| atX x ||| atY y
  | .skrne x y => 0x9000#16 ||| atX x ||| atY y
  | .load x nn => 0x6000#16 ||| atX x ||| atNN nn
  | .add x nn => 0x7000#16 ||| atX x ||| atNN nn
  | .move x y => 0x8000#16 ||| atX x ||| atY y
  | .or x y => 0x8001#16 ||| atX x ||| atY y
  | .and x y => 0x8002#16 ||| atX x ||| atY y
  | .xor x y => 0x8003#16 ||| atX x ||| atY y
  | .addr x y => 0x8004#16 ||| atX x ||| atY y
  | .sub x y => 0x8005#16 ||| atX x ||| atY y
  | .subn x y => 0x8007#16 ||| atX x ||| atY y
  | .shr x y => 0x8006#16 ||| atX x ||| atY y
  | .shl x y => 0x800E#16 ||| atX x ||| atY y
  | .loadi nnn => 0xA000#16 ||| atNNN nnn
  | .jumpi nnn => 0xB000#16 ||| atNNN nnn
  | .rand x nn => 0xC000#16 ||| atX x ||| atNN nn
  | .draw x y n => 0xD000#16 ||| atX x ||| atY y ||| atN n
  | .skp x => 0xE09E#16 ||| atX x
  | .sknp x => 0xE0A1#16 ||| atX x
  | .moved x => 0xF007#16 ||| atX x
  | .keyd x => 0xF00A#16 ||| atX x
  | .loadd x => 0xF015#16 ||| atX x
  | .loads x => 0xF018#16 ||| atX x
  | .addi x => 0xF01E#16 ||| atX x
  | .ldspr x => 0xF029#16 ||| atX x
  | .bcd x => 0xF033#16 ||| atX x
  | .stor x => 0xF055#16 ||| atX x
  | .read x => 0xF065#16 ||| atX x

/-- The two bytes of an instruction in the order ram holds them (R42). -/
def encodeBytes (i : Instr) : List Byte := [highByte (encode i), lowByte (encode i)]

/-! ## The opcode table itself (R66) -/

/-- R66's match and mask of an instruction's row: "A word w selects the row whose `(w & mask) = match`". -/
def Instr.matchMask : Instr → Word × Word
  | .clr => (0x00E0, 0xFFFF)
  | .rts => (0x00EE, 0xFFFF)
  | .jump _ => (0x1000, 0xF000)
  | .call _ => (0x2000, 0xF000)
  | .ske _ _ => (0x3000, 0xF000)
  | .skne _ _ => (0x4000, 0xF000)
  | .skre _ _ => (0x5000, 0xF00F)
  | .skrne _ _ => (0x9000, 0xF00F)
  | .load _ _ => (0x6000, 0xF000)
  | .add _ _ => (0x7000, 0xF000)
  | .move _ _ => (0x8000, 0xF00F)
  | .or _ _ => (0x8001, 0xF00F)
  | .and _ _ => (0x8002, 0xF00F)
  | .xor _ _ => (0x8003, 0xF00F)
  | .addr _ _ => (0x8004, 0xF00F)
  | .sub _ _ => (0x8005, 0xF00F)
  | .subn _ _ => (0x8007, 0xF00F)
  | .shr _ _ => (0x8006, 0xF00F)
  | .shl _ _ => (0x800E, 0xF00F)
  | .loadi _ => (0xA000, 0xF000)
  | .jumpi _ => (0xB000, 0xF000)
  | .rand _ _ => (0xC000, 0xF000)
  | .draw _ _ _ => (0xD000, 0xF000)
  | .skp _ => (0xE09E, 0xF0FF)
  | .sknp _ => (0xE0A1, 0xF0FF)
  | .moved _ => (0xF007, 0xF0FF)
  | .keyd _ => (0xF00A, 0xF0FF)
  | .loadd _ => (0xF015, 0xF0FF)
  | .loads _ => (0xF018, 0xF0FF)
  | .addi _ => (0xF01E, 0xF0FF)
  | .ldspr _ => (0xF029, 0xF0FF)
  | .bcd _ => (0xF033, 0xF0FF)
  | .stor _ => (0xF055, 0xF0FF)
  | .read _ => (0xF065, 0xF0FF)

/-- One instruction of each row, to name the 34 rows of R66 in their order (its operands are all zero). -/
def opcodeRows : List Instr :=
  [.clr, .rts, .jump 0, .call 0, .ske 0 0, .skne 0 0, .skre 0 0, .skrne 0 0, .load 0 0, .add 0 0] ++
  [.move 0 0, .or 0 0, .and 0 0, .xor 0 0, .addr 0 0, .sub 0 0, .subn 0 0, .shr 0 0, .shl 0 0] ++
  [.loadi 0, .jumpi 0, .rand 0 0, .draw 0 0 0, .skp 0, .sknp 0, .moved 0, .keyd 0, .loadd 0] ++
  [.loads 0, .addi 0, .ldspr 0, .bcd 0, .stor 0, .read 0]

/-! ## The host's reading of the table -/

/-- The instruction of a word numbered as spec/opcode_table.json numbers it. Every row has 16 bits; the word is laid
out high byte first, as ram holds it (R42), and given to `decode`. -/
def decodeTableWord (_nbits w : Nat) : Option Instr :=
  match decode [highByte (BitVec.ofNat 16 w), lowByte (BitVec.ofNat 16 w)] with
  | .ok (i, _) => some i
  | .error _ => none

end Sys2Proof
end

