-- ==== Sys2Proof/Machine/Flags.lean ====
section
/-! DEFINITION. The flag computations of 41_arithmetic_logic.md R123, each from the exact values of the operands. The
collision flag of DRAW is accumulated by the compositor (Machine/Operands.lean). -/

namespace Sys2Proof.Machine

/-- A flag as vF holds it: "the full 8-bit value 0x00 or 0x01" (R123). -/
def flagByte (f : Bool) : Byte := if f then 0x01 else 0x00

/-- Carry out of bit 7: the exact sum is 256 or more (R116). -/
def carryOut (a b : Byte) : Bool := decide (a.toNat + b.toNat > 255)

/-- No borrow: minuend a >= subtrahend b (R117, R118). -/
def noBorrow (a b : Byte) : Bool := decide (a.toNat ≥ b.toNat)

/-- The bit SHR shifts out, a[0:0] (R119). -/
def lowBit (a : Byte) : Bool := a.getLsbD 0

/-- The bit SHL shifts out, a[7:7] (R120). -/
def highBit (a : Byte) : Bool := a.getLsbD 7

end Sys2Proof.Machine
end

