-- ==== Sys2Proof/Config.lean ====
section
/-! DEFINITION. The machine's parameters (00_scope.md R5; 93_implementation_defined.md Part 2): the one free value,
and the values each open parameter can take. Which value the machine of the rules takes is in Machine/Params.lean. -/

namespace Sys2Proof

/-- RAND, the random-byte source: "a function from the count of RANDs executed so far to a byte; no default;
quantified over" (93_implementation_defined.md Part 2; 60_exceptions.md R180). It has no body: no proof can see a
value of it, and the kernel cannot evaluate it (log 7). -/
opaque Config.randByte : Nat → Byte

/-- SHIFT_VF_ORDER: which write to vF survives in SHR and SHL with x = 0xF (decision D12, log 16). -/
inductive ShiftVfOrder where
  /-- The operand is latched, the flag written first, the shifted value second (the default). -/
  | latched
  /-- The second assignment re-reads the flag just written. -/
  | sequential
  /-- The captured bit is written last. -/
  | flagLast
  /-- The words 0x8F?6 and 0x8F?E have no meaning. -/
  | refuse
  deriving DecidableEq, Repr

/-- KEY_INDEX_OOR: SKP and SKNP with vx > 15 (decision D9, log 14). -/
inductive KeyIndexOor where
  /-- KeyIndexFault (the default). -/
  | fault
  /-- The key tested is vx mod 16. -/
  | mask4
  /-- The key counts as not pressed. -/
  | notPressed
  deriving DecidableEq, Repr

/-- I_OVERFLOW: ADDI with a sum above 0xFFFF (decision D10, log 15). -/
inductive IOverflow where
  /-- The sum modulo 65536 (the default). -/
  | wrap16
  /-- An ADDI whose sum exceeds 0xFFFF has no meaning. -/
  | refuse
  deriving DecidableEq, Repr

/-- DATA_OOR: DRAW, BCD, STOR and READ when the range passes 0xFFF (decision D8, log 13). -/
inductive DataOor where
  /-- AddressFault before any write (the default). -/
  | fault
  /-- Element k is at (i + k) mod 4096. -/
  | wrap4096
  /-- Elements beyond 0xFFF are not written and read as 0x00. -/
  | clip
  /-- No meaning. -/
  | refuse
  deriving DecidableEq, Repr

end Sys2Proof
end

