-- ==== Sys2Proof/Machine/Params.lean ====
section
/-! DEFINITION. The value each open parameter has in the machine of the rules: the default of 93_implementation_defined.md
Part 2, the first value of each row. "The defaults together are the machine the rules of the section files describe." -/

namespace Sys2Proof.Machine

/-- SHIFT_VF_ORDER (decision D12; 41_arithmetic_logic.md R124). -/
def shiftVfOrder : ShiftVfOrder := .latched

/-- KEY_INDEX_OOR (decision D9; 44_keys_timers.md R150). -/
def keyIndexOor : KeyIndexOor := .fault

/-- I_OVERFLOW (decision D10; 42_index_memory.md R131). -/
def iOverflow : IOverflow := .wrap16

/-- DATA_OOR (decision D8; 20_memory.md R46, R47). -/
def dataOor : DataOor := .fault

end Sys2Proof.Machine
end

