-- ==== Sys2Proof/Machine/State.lean ====
section
/-! DEFINITION. The state: everything 10_state.md R35 gives the machine, and three fields of the model's own; the
reasons a step can stop; the state right after reset. -/

namespace Sys2Proof.Machine

/-- ram as plain data: the (address, byte) pairs that differ from the reset contents, addresses strictly rising
(10_state.md R30; log 25). Its operations, its reset contents and its form are in Machine/Ops.lean. -/
abbrev Memory := List Host.Cell

/-- The framebuffer (10_state.md R31): row cy is entry cy, and column cx of it is bit cx, so that cell 64 * cy + cx is
bit cx of entry cy (log 24). -/
abbrev Video := Vector (BitVec 64) 32

/-- The recorded faults and their information (60_exceptions.md R160); the codes are `FaultRecord.code`. -/
inductive FaultRecord where
  /-- Code 1, by the fetch phase when pc > 4094: the offending pc (R162). -/
  | insufficientBytes (pc : Word)
  /-- Code 2, by the execute phase when ir selects no instruction: the word and its address pc0 (R163). -/
  | unknownInstruction (ir pc0 : Word)
  /-- Code 3, by CALL with 16 pending return addresses: its address pc0 (R164). -/
  | stackOverflow (pc0 : Word)
  /-- Code 4, by RTS with no pending return address: its address pc0 (R165). -/
  | stackUnderflow (pc0 : Word)
  /-- Code 5, by the host's Load of a program longer than 3584 bytes: the length (R166). -/
  | loadSizeViolation (len : Nat)
  /-- Code 6, by DRAW, BCD, STOR, READ beyond 0xFFF: the first address and the count of bytes (R167). -/
  | addressFault (first : Word) (count : Nat)
  /-- Code 7, by SKP, SKNP with vx > 15: vx (R168). -/
  | keyIndexFault (k : Byte)
  deriving DecidableEq, Repr

/-- What the host can do to the machine (60_exceptions.md R181), each event wholly between two cycles. The answer to a
RAND is `Config.randByte`; reading an output changes nothing; "stop" is the end of the run. -/
inductive HostEvent where
  /-- Put all state at its reset value (70_reset_and_hazards.md R190). -/
  | reset
  /-- Load a program image at 0x200 (R182). -/
  | load (bytes : List Byte)
  /-- Perform that many cycles (00_scope.md R10). -/
  | run (cycles : Nat)
  /-- Decrement the timers (R175). -/
  | tick
  /-- Set the key state; bit k is logical key k (R178). -/
  | setKeys (keys : BitVec 16)
  deriving DecidableEq, Repr

/-- The machine's state: the rows of the table of 10_state.md R35 under their own names, then the model's own fields. -/
structure State where
  /-- General registers v0 to vF (R20, R21). -/
  v : Vector Byte 16
  /-- Program counter (R22). -/
  pc : Word
  /-- Index register (R24). -/
  i : Word
  /-- Delay timer (R25). -/
  dt : Byte
  /-- Sound timer (R26). -/
  st : Byte
  /-- Stack count: the number of pending return addresses, 0 to 16 (R27). -/
  sp : BitVec 5
  /-- The 16 slots of the call stack (R29). -/
  stack : Vector Word 16
  /-- Instruction register, the source's `current` (R28). -/
  ir : Word
  /-- The 4096 bytes of ram (R30). -/
  ram : Memory
  /-- The framebuffer (R31). -/
  video : Video
  /-- The key state: bit k is 1 while logical key k is pressed (R32). -/
  keys : BitVec 16
  /-- The machine has halted (R33). -/
  halted : Bool
  /-- The recorded fault (R33, R160). -/
  fault : Option FaultRecord
  /-- THE MODEL'S OWN: what the host does next, oldest first; when it is empty the host goes on running cycles (log 3). -/
  events : List HostEvent
  /-- THE MODEL'S OWN: how many random bytes have been drawn, the argument of `Config.randByte` (log 7). -/
  draws : Nat
  /-- THE MODEL'S OWN: neither a Load nor a cycle since the last reset, so a Load is in turn (R181; log 4). -/
  loadOpen : Bool
  deriving DecidableEq, Repr

/-- Why a step has no next state. A fault of the MACHINE is not one of these: it is a next state with `halted` set. -/
inductive Fault where
  /-- By `step` on a halted machine whose host does not reset it: "the CPU has no step" (60_exceptions.md R161), with
  the recorded fault. Safe: the machine does nothing (log 1). -/
  | halted (r : Option FaultRecord)
  /-- By RTS with a stack count above 16, which names a slot that does not exist; no run reaches such a count
  (10_state.md R27, R29). Safe (log 21). -/
  | noStackSlot
  deriving DecidableEq, Repr

/-- What the model gives no meaning. -/
inductive Refusal where
  /-- By an arm of `exec` whose instruction has no meaning yet (none is left). Safe. -/
  | notModelled (mnemonic : String)
  /-- By `step` for a Load that is not the first act after a reset and before the first cycle: "this spec does not give
  that a meaning" (60_exceptions.md R182). Safe (log 4). -/
  | loadOutOfTurn
  /-- By SHR, SHL with x = 0xF under SHIFT_VF_ORDER = refuse only; never at the default. Safe (log 16). -/
  | shiftOfVf
  /-- By ADDI with a sum above 0xFFFF under I_OVERFLOW = refuse only; never at the default. Safe (log 15). -/
  | indexOverflow
  /-- By DRAW, BCD, STOR, READ beyond 0xFFF under DATA_OOR = refuse only; never at the default. Safe (log 13). -/
  | dataOutOfRange
  deriving DecidableEq, Repr

/-- The machine right after Reset (10_state.md R35; 70_reset_and_hazards.md R190). pc, sp and the font are the
source's; every zero beside them is the spec's decision D7, D19, D21 (log 8). ram lists nothing: an unlisted address reads
as its reset contents. -/
def State.reset : State where
  v := Vector.replicate 16 0x00
  pc := 0x0200
  i := 0x0000
  dt := 0x00
  st := 0x00
  sp := 0
  stack := Vector.replicate 16 0x0000
  ir := 0x0000
  ram := []
  video := Vector.replicate 32 0
  keys := 0
  halted := false
  fault := none
  events := []
  draws := 0
  loadOpen := true

end Sys2Proof.Machine
end

