-- ==== Sys2Proof/Machine/Ops.lean ====
section
/-! DEFINITION. The named operations over registers, ram, the call stack and the framebuffer, and `raise`, the one way
a fault is taken (60_exceptions.md R161). -/

namespace Sys2Proof.Machine

/-- What a step or a meaning answers. -/
abbrev Result := Host.Outcome State Fault Refusal

/-! ## Faults: taking one, and the check that comes before every write -/

/-- The numeric code of a fault (60_exceptions.md R160; decision D16). -/
def FaultRecord.code : FaultRecord → Nat
  | .insufficientBytes _ => 1
  | .unknownInstruction _ _ => 2
  | .stackOverflow _ => 3
  | .stackUnderflow _ => 4
  | .loadSizeViolation _ => 5
  | .addressFault _ _ => 6
  | .keyIndexFault _ => 7

/-- `raise F(info)` "performs `halted <- 1; fault <- (F, info)` and nothing else" (R161): the next state is the
halted machine. There is no handler and no return but Reset (R171). -/
def State.raise (s : State) (r : FaultRecord) : Result :=
  .next { s with halted := true, fault := some r }

/-- The outcome of an instruction's one check (60_exceptions.md R169): what it goes on with, or how it ends. Every
`raise` stands before the first write of its block (00_scope.md R8), so a check never carries a changed state. -/
inductive Attempt (α : Type) where
  | ok (a : α)
  | raise (r : FaultRecord)
  | fault (f : Fault)
  | refuse (q : Refusal)
  deriving DecidableEq, Repr

/-- Do the check, then the writes `k`; where the check fails nothing is written (R8). -/
def State.attempt {α : Type} (s : State) (c : Attempt α) (k : α → State) : Result :=
  match c with
  | .ok a => .next (k a)
  | .raise r => s.raise r
  | .fault f => .fault f
  | .refuse q => .refused q

/-! ## Registers (10_state.md R20 to R28) -/

/-- Read v[x]. No register is hardwired (R20). -/
def State.reg (s : State) (x : Reg) : Byte := s.v[x.toNat]'x.isLt

/-- Write v[x]. -/
def State.setReg (s : State) (x : Reg) (b : Byte) : State := { s with v := s.v.set x.toNat b x.isLt }

/-- Write pc. -/
def State.setPc (s : State) (a : Word) : State := { s with pc := a }

/-- Write i. -/
def State.setI (s : State) (a : Word) : State := { s with i := a }

/-- Write dt. -/
def State.setDt (s : State) (b : Byte) : State := { s with dt := b }

/-- Write st. -/
def State.setSt (s : State) (b : Byte) : State := { s with st := b }

/-- Write ram as a whole. -/
def State.setRam (s : State) (m : Memory) : State := { s with ram := m }

/-- Write the framebuffer as a whole. -/
def State.setVideo (s : State) (g : Video) : State := { s with video := g }

/-- Write the key state: the host's SetKeys alone does (R32). -/
def State.setKeys (s : State) (k : BitVec 16) : State := { s with keys := k }

/-- pc0, the address the instruction was fetched from: pc = pc0 + 2 in the execute phase (40_control_flow.md R108). -/
def State.pc0 (s : State) : Word := s.pc - 2

/-- The random byte of this RAND, and the count of draws moved on (60_exceptions.md R180; log 7). -/
def State.drawByte (s : State) : Byte × State := (Config.randByte s.draws, { s with draws := s.draws + 1 })

/-! ## ram (20_memory.md R40 to R47) -/

/-- The 80 font bytes, glyph d at 5d to 5d+4, top row first (10_state.md R30; decision D6, log 9). -/
def fontBytes : List Byte :=
  [0xF0, 0x90, 0x90, 0x90, 0xF0] ++ [0x20, 0x60, 0x20, 0x20, 0x70] ++
  [0xF0, 0x10, 0xF0, 0x80, 0xF0] ++ [0xF0, 0x10, 0xF0, 0x10, 0xF0] ++
  [0x90, 0x90, 0xF0, 0x10, 0x10] ++ [0xF0, 0x80, 0xF0, 0x10, 0xF0] ++
  [0xF0, 0x80, 0xF0, 0x90, 0xF0] ++ [0xF0, 0x10, 0x20, 0x40, 0x40] ++
  [0xF0, 0x90, 0xF0, 0x90, 0xF0] ++ [0xF0, 0x90, 0xF0, 0x10, 0xF0] ++
  [0xF0, 0x90, 0xF0, 0x90, 0x90] ++ [0xE0, 0x90, 0xE0, 0x90, 0xE0] ++
  [0xF0, 0x80, 0x80, 0x80, 0xF0] ++ [0xE0, 0x90, 0x90, 0x90, 0xE0] ++
  [0xF0, 0x80, 0xF0, 0x80, 0xF0] ++ [0xF0, 0x80, 0xF0, 0x80, 0x80]

/-- What an unlisted address reads as: its reset contents, the font below 0x050 and 0x00 above (R30; decision D7, log 8). -/
def Memory.background (a : Nat) : Byte := fontBytes.getD a 0x00

/-- Read one byte. Every caller has checked that the address exists (R46). -/
def Memory.read (m : Memory) (a : Nat) : Byte :=
  match m with
  | [] => Memory.background a
  | (c, d) :: m => if c = a then d else Memory.read m a

/-- Write one byte, keeping the list sorted and free of bytes that equal the reset contents. -/
def Memory.write (m : Memory) (a : Nat) (b : Byte) : Memory :=
  match m with
  | [] => if b = Memory.background a then [] else [(a, b)]
  | (c, d) :: m =>
    if a < c then (if b = Memory.background a then (c, d) :: m else (a, b) :: (c, d) :: m)
    else if a = c then (if b = Memory.background a then m else (a, b) :: m)
    else (c, d) :: Memory.write m a b

/-- The canonical form from an address on: addresses rise strictly, exist (below 4096), and no entry equals what an
unlisted address reads as. -/
def Memory.wfFrom (lo : Nat) : Memory → Bool
  | [] => true
  | (a, b) :: m => lo ≤ a && a < 4096 && b != Memory.background a && Memory.wfFrom (a + 1) m

/-- The canonical form of ram (log 25). -/
def Memory.wf (m : Memory) : Bool := Memory.wfFrom 0 m

/-- Where the element at the unreduced address a stands: at a while a exists; beyond 0xFFF only DATA_OOR = wrap4096
gives it a place (93_implementation_defined.md Part 2). -/
def elementPlace (d : DataOor) (a : Nat) : Option Nat :=
  if a < 4096 then some a
  else match d with
    | .wrap4096 => some (a % 4096)
    | .fault => none
    | .clip => none
    | .refuse => none

/-- n bytes from a on, in ascending order (20_memory.md R44); an element without a place reads as 0x00 (DATA_OOR = clip). -/
def Memory.readFrom (d : DataOor) (m : Memory) (a : Nat) : Nat → List Byte
  | 0 => []
  | n + 1 =>
    (match elementPlace d a with
      | some p => m.read p
      | none => 0x00) :: Memory.readFrom d m (a + 1) n

/-- Write the bytes from a on, in ascending order (R44); an element without a place is not written. -/
def Memory.writeFrom (d : DataOor) (m : Memory) (a : Nat) : List Byte → Memory
  | [] => m
  | b :: bs =>
    Memory.writeFrom d
      (match elementPlace d a with
        | some p => m.write p b
        | none => m) (a + 1) bs

/-- The range check of MemRead and MemWrite: "if n = 0 it ... checks nothing. Otherwise, if addr + n - 1 > 4095
(computed without wrap-around)" it fails (R46, R47). -/
def inRange (a : Word) (n : Nat) : Bool := n == 0 || decide (a.toNat + n - 1 ≤ 4095)

/-- What an access that fails the range check does: AddressFault at the default (decision D8, log 13), `k` where
DATA_OOR lets the access go on. -/
def outOfRange {α : Type} (d : DataOor) (a : Word) (n : Nat) (k : α) : Attempt α :=
  match d with
  | .fault => .raise (.addressFault a n)
  | .refuse => .refuse .dataOutOfRange
  | .wrap4096 => .ok k
  | .clip => .ok k

/-- `MemRead(addr, n)` (R46). -/
def memRead (d : DataOor) (m : Memory) (a : Word) (n : Nat) : Attempt (List Byte) :=
  if inRange a n then .ok (m.readFrom d a.toNat n) else outOfRange d a n (m.readFrom d a.toNat n)

/-- `MemWrite(addr, n, bytes)`, n the number of bytes (R47): the ram after it. -/
def memWrite (d : DataOor) (m : Memory) (a : Word) (bs : List Byte) : Attempt Memory :=
  if inRange a bs.length then .ok (m.writeFrom d a.toNat bs)
  else outOfRange d a bs.length (m.writeFrom d a.toNat bs)

/-! ## The call stack (10_state.md R29) -/

/-- Push pc: "if sp = 16 raise StackOverflow, else `stack[sp] <- pc; sp <- sp + 1`". A count above 16, which no run
reaches, has no free slot either (log 21). -/
def State.push (s : State) : Attempt State :=
  if h : s.sp.toNat < 16 then .ok { s with stack := s.stack.set s.sp.toNat s.pc h, sp := s.sp + 1 }
  else .raise (.stackOverflow s.pc0)

/-- Pop into pc: "if sp = 0 raise StackUnderflow, else `sp <- sp - 1; pc <- stack[sp]`"; the vacated slot keeps its
value. A count above 16 names no slot (log 21). -/
def State.pop (s : State) : Attempt State :=
  if s.sp = 0 then .raise (.stackUnderflow s.pc0)
  else match s.stack[s.sp.toNat - 1]? with
    | some a => .ok { s with sp := s.sp - 1, pc := a }
    | none => .fault .noStackSlot

/-! ## The framebuffer (10_state.md R31; 43_display.md R142) -/

/-- Cell k = 64 * cy + cx of the framebuffer, 0 to 2047. -/
def Video.cell (g : Video) (k : Nat) : Bool :=
  if h : k / 64 < 32 then (g[k / 64]).getLsbD (k % 64) else false

/-- `video[k] <- video[k] ^ 1`. -/
def Video.flip (g : Video) (k : Nat) : Video :=
  if h : k / 64 < 32 then g.set (k / 64) (g[k / 64] ^^^ BitVec.twoPow 64 (k % 64)) else g

/-- Every cell 0 (43_display.md R140). -/
def Video.clear : Video := Vector.replicate 32 0

end Sys2Proof.Machine
end

