-- ==== Sys2Proof/Machine/Operands.lean ====
section
/-! DEFINITION. The operand forms and the shared parts of the meanings: zero extension, skips, key indices, register
ranges, the shift's two writes, the index sum, decimal digits, and the XOR compositor. -/

namespace Sys2Proof.Machine

/-- `zext_16(nnn)` (30_encoding.md R64). -/
def zextAddr (nnn : Addr) : Word := nnn.setWidth 16

/-- `zext_16(v)` of a byte (42_index_memory.md R131, R132). -/
def zextByte (b : Byte) : Word := b.setWidth 16

/-- A skip: "`pc <- pc + 2` performed in the execute phase" when the condition holds (00_scope.md R14; 40_control_flow.md R103). -/
def State.skipIf (s : State) (c : Bool) : State := if c then s.setPc (s.pc + 2) else s

/-! ## The flag-writing register operations (41_arithmetic_logic.md R116 to R120, R124) -/

/-- `v[x] <- result` and then `v[0xF] <- flag`, "written second" (R116, R117, R118). -/
def State.resultThenFlag (s : State) (x : Reg) (result : Byte) (flag : Bool) : State :=
  (s.setReg x result).setReg 0xF (flagByte flag)

/-- The two writes of a shift in the order SHIFT_VF_ORDER gives (R124; 93_implementation_defined.md Part 2): `bit` is the
bit that leaves the register, `sh` the shift by one. The orders differ for x = 0xF only. -/
def State.shiftReg (o : ShiftVfOrder) (s : State) (x : Reg) (bit : Byte → Bool) (sh : Byte → Byte) : Attempt State :=
  let a := s.reg x
  let flagged := s.setReg 0xF (flagByte (bit a))
  match o with
  | .latched => .ok (flagged.setReg x (sh a))
  | .sequential => .ok (flagged.setReg x (sh (flagged.reg x)))
  | .flagLast => .ok ((s.setReg x (sh a)).setReg 0xF (flagByte (bit a)))
  | .refuse => if x = 0xF then .refuse .shiftOfVf else .ok (flagged.setReg x (sh a))

/-! ## Index and memory operands (42_index_memory.md R131 to R135) -/

/-- i + zext_16(vx) (R131): modulo 65536 at the default (decision D10, log 15). -/
def indexSum (o : IOverflow) (i : Word) (b : Byte) : Attempt Word :=
  match o with
  | .wrap16 => .ok (i + zextByte b)
  | .refuse => if i.toNat + b.toNat > 0xFFFF then .refuse .indexOverflow else .ok (i + zextByte b)

/-- Hundreds, tens and units of a byte, most significant first (R133). -/
def bcdDigits (a : Byte) : List Byte := [a / 100, a / 10 % 10, a % 10]

/-- `[ v[0], v[1], ..., v[x-1] ]`: x registers, vx itself excluded (R134). -/
def State.regsBelow (s : State) (x : Reg) : List Byte :=
  (List.range x.toNat).map fun k => s.reg (BitVec.ofNat 4 k)

/-- `for k = 0 to x: v[k] <- b[k]` (R135), from register k on. -/
def State.setRegsFrom (s : State) (k : Nat) : List Byte → State
  | [] => s
  | b :: bs => (s.setReg (BitVec.ofNat 4 k) b).setRegsFrom (k + 1) bs

/-! ## Keys (44_keys_timers.md R150 to R152) -/

/-- Whether the key with the register's value as index is pressed; for a value above 15 what KEY_INDEX_OOR says:
KeyIndexFault at the default (decision D9, log 14). -/
def keyPressed (o : KeyIndexOor) (keys : BitVec 16) (k : Byte) : Attempt Bool :=
  if k.toNat > 15 then
    match o with
    | .fault => .raise (.keyIndexFault k)
    | .mask4 => .ok (keys.getLsbD (k.toNat % 16))
    | .notPressed => .ok false
  else .ok (keys.getLsbD k.toNat)

/-- `min { k : keys[k] = 1 }`, if any key is pressed (R152). -/
def lowestKey (keys : BitVec 16) : Option Nat := (List.range 16).find? fun k => keys.getLsbD k

/-! ## The XOR compositor (43_display.md R141, R142) -/

/-- The cells that the sprite byte b touches in screen row cy with its left edge at column px: bit 7 - c is sprite
column c (decision D5, log 12); a 0 bit touches nothing; the column wraps modulo 64. -/
def rowCells (px cy : Nat) (b : Byte) : List Nat :=
  (List.range 8).filterMap fun c =>
    if b.getLsbD (7 - c) then some (64 * cy + (px + c) % 64) else none

/-- The cells that a sprite touches, row by row from sprite row r on; the row wraps modulo 32. -/
def spriteCells (px py r : Nat) : List Byte → List Nat
  | [] => []
  | b :: bs => rowCells px ((py + r) % 32) b ++ spriteCells px py (r + 1) bs

/-- One touched cell: `if video[k] = 1 then v[0xF] <- 1` and `video[k] <- video[k] ^ 1`; the pair is the collision so
far and the framebuffer so far. -/
def touchCell (p : Bool × Video) (k : Nat) : Bool × Video := (p.1 || p.2.cell k, p.2.flip k)

/-- Composite the sprite bytes at (px, py): the collision flag, cleared at the start, and the new framebuffer. -/
def composite (px py : Nat) (bytes : List Byte) (g : Video) : Bool × Video :=
  (spriteCells px py 0 bytes).foldl touchCell (false, g)

/-- The sprite's column, vx mod 64 (R141). -/
def State.spriteColumn (s : State) (x : Reg) : Nat := (s.reg x).toNat % 64

/-- The sprite's row, vy mod 32 (R141). -/
def State.spriteRow (s : State) (y : Reg) : Nat := (s.reg y).toNat % 32

/-- The writes of DRAW: the coordinates are read first, then vF becomes the collision flag (R141 (g), log 16). -/
def State.drawSprite (s : State) (x y : Reg) (bytes : List Byte) : State :=
  let drawn := composite (s.spriteColumn x) (s.spriteRow y) bytes s.video
  (s.setReg 0xF (flagByte drawn.1)).setVideo drawn.2

end Sys2Proof.Machine
end

