-- ==== Sys2Proof/Machine/Arith.lean ====
section
/-! DEFINITION. Load, arithmetic, logic, shift and random instructions (41_arithmetic_logic.md): LOAD, ADD, MOVE, OR, AND,
XOR, ADDR, SUB, SUBN, SHR, SHL, RAND. None touches ram, video, keys, i, dt, st, the call stack or pc, and none faults (R125). -/

namespace Sys2Proof.Machine

/-- LOAD vx,nn: `v[x] <- nn` (R110). -/
def execLoad (x : Reg) (nn : Byte) (s : State) : Result := .next (s.setReg x nn)

/-- ADD vx,nn: `v[x] <- (a + nn) mod 256`; the carry is lost (R111). -/
def execAdd (x : Reg) (nn : Byte) (s : State) : Result := .next (s.setReg x (s.reg x + nn))

/-- MOVE vx,vy: `v[x] <- v[y]` (R112). -/
def execMove (x y : Reg) (s : State) : Result := .next (s.setReg x (s.reg y))

/-- OR vx,vy; vF is not written (R113). -/
def execOr (x y : Reg) (s : State) : Result := .next (s.setReg x (s.reg x ||| s.reg y))

/-- AND vx,vy; vF is not written (R114). -/
def execAnd (x y : Reg) (s : State) : Result := .next (s.setReg x (s.reg x &&& s.reg y))

/-- XOR vx,vy; vF is not written (R115). -/
def execXor (x y : Reg) (s : State) : Result := .next (s.setReg x (s.reg x ^^^ s.reg y))

/-- ADDR vx,vy: sum modulo 256, then vF = carry (R116). -/
def execAddr (x y : Reg) (s : State) : Result :=
  .next (s.resultThenFlag x (s.reg x + s.reg y) (carryOut (s.reg x) (s.reg y)))

/-- SUB vx,vy: vx - vy modulo 256, then vF = no borrow (R117). -/
def execSub (x y : Reg) (s : State) : Result :=
  .next (s.resultThenFlag x (s.reg x - s.reg y) (noBorrow (s.reg x) (s.reg y)))

/-- SUBN vx,vy: vy - vx modulo 256, then vF = no borrow (R118). -/
def execSubn (x y : Reg) (s : State) : Result :=
  .next (s.resultThenFlag x (s.reg y - s.reg x) (noBorrow (s.reg y) (s.reg x)))

/-- SHR vx: vF = the low bit, then vx >> 1, logical; y is ignored (R119). -/
def execShr (x _y : Reg) (s : State) : Result :=
  s.attempt (s.shiftReg shiftVfOrder x lowBit fun a => a >>> 1) fun t => t

/-- SHL vx: vF = the high bit, then vx << 1 modulo 256; y is ignored (R120). -/
def execShl (x _y : Reg) (s : State) : Result :=
  s.attempt (s.shiftReg shiftVfOrder x highBit fun a => a <<< 1) fun t => t

/-- RAND vx,nn: exactly one byte is drawn, also when nn = 0x00; `v[x] <- nn & r` (R121). -/
def execRand (x : Reg) (nn : Byte) (s : State) : Result := .next (s.drawByte.2.setReg x (nn &&& s.drawByte.1))

end Sys2Proof.Machine
end

