-- ==== Sys2Proof/Machine/Control.lean ====
section
/-! DEFINITION. Control flow (40_control_flow.md): RTS, JUMP, CALL, SKE, SKNE, SKRE, SKRNE, JUMPI. Every meaning starts
in the execute phase, with pc = pc0 + 2 (R108). -/

namespace Sys2Proof.Machine

/-- RTS: pop the return address into pc, or StackUnderflow (R100). -/
def execRts (s : State) : Result := s.attempt s.pop fun t => t

/-- JUMP nnn: `pc <- zext_16(nnn)`; no alignment and no range is checked (R101). -/
def execJump (nnn : Addr) (s : State) : Result := .next (s.setPc (zextAddr nnn))

/-- CALL nnn: push pc, or StackOverflow; then `pc <- zext_16(nnn)` (R102). -/
def execCall (nnn : Addr) (s : State) : Result := s.attempt s.push fun t => t.setPc (zextAddr nnn)

/-- SKE vx,nn: skip if vx = nn (R103). -/
def execSke (x : Reg) (nn : Byte) (s : State) : Result := .next (s.skipIf (s.reg x == nn))

/-- SKNE vx,nn: skip if vx != nn (R104). -/
def execSkne (x : Reg) (nn : Byte) (s : State) : Result := .next (s.skipIf (s.reg x != nn))

/-- SKRE vx,vy: skip if vx = vy (R105). -/
def execSkre (x y : Reg) (s : State) : Result := .next (s.skipIf (s.reg x == s.reg y))

/-- SKRNE vx,vy: skip if vx != vy (R106). -/
def execSkrne (x y : Reg) (s : State) : Result := .next (s.skipIf (s.reg x != s.reg y))

/-- JUMPI nnn: `pc <- zext_16(v[0]) + zext_16(nnn)`, neither wrapped nor masked (R107; decision D24, log 19). -/
def execJumpi (nnn : Addr) (s : State) : Result := .next (s.setPc (zextByte (s.reg 0) + zextAddr nnn))

end Sys2Proof.Machine
end

