-- ==== Sys2Proof/Machine/Display.lean ====
section
/-! DEFINITION. Display instructions (43_display.md): CLR, DRAW, the only ones that touch the framebuffer. -/

namespace Sys2Proof.Machine

/-- CLR: every cell of the framebuffer to 0 (R140). -/
def execClr (s : State) : Result := .next (s.setVideo Video.clear)

/-- DRAW vx,vy,n: read n sprite bytes at i, range check first; then composite them at (vx mod 64, vy mod 32) and set
vF to the collision flag (R141). -/
def execDraw (x y : Reg) (n : Nibble) (s : State) : Result := s.attempt (memRead dataOor s.ram s.i n.toNat) (s.drawSprite x y)

end Sys2Proof.Machine
end

