-- ==== Sys2Proof/Machine/Index.lean ====
section
/-! DEFINITION. Index-register and memory instructions (42_index_memory.md): LOADI, ADDI, LDSPR, BCD, STOR, READ. BCD, STOR
and READ leave i exactly as it was (R136). -/

namespace Sys2Proof.Machine

/-- LOADI nnn: `i <- zext_16(nnn)` (R130). -/
def execLoadi (nnn : Addr) (s : State) : Result := .next (s.setI (zextAddr nnn))

/-- ADDI vx: `i <- (i + zext_16(v[x])) mod 65536`; vF is not written (R131). -/
def execAddi (x : Reg) (s : State) : Result := s.attempt (indexSum iOverflow s.i (s.reg x)) s.setI

/-- LDSPR vx: `i <- 5 * zext_16(v[x])`, all 8 bits (R132; decision D25, log 20). -/
def execLdspr (x : Reg) (s : State) : Result := .next (s.setI (5 * zextByte (s.reg x)))

/-- BCD vx: the three digits to i, i+1, i+2, range check first (R133). -/
def execBcd (x : Reg) (s : State) : Result := s.attempt (memWrite dataOor s.ram s.i (bcdDigits (s.reg x))) s.setRam

/-- STOR vx: v0 to v(x-1) to i, i+1, ..., x bytes, range check first; vx itself is NOT stored (R134). -/
def execStor (x : Reg) (s : State) : Result := s.attempt (memWrite dataOor s.ram s.i (s.regsBelow x)) s.setRam

/-- READ vx: x + 1 bytes from i on into v0 to vx, range check first; vx is included (R135). -/
def execRead (x : Reg) (s : State) : Result := s.attempt (memRead dataOor s.ram s.i (x.toNat + 1)) (s.setRegsFrom 0)

end Sys2Proof.Machine
end

