-- ==== Sys2Proof/Machine/KeysTimers.lean ====
section
/-! DEFINITION. Key and timer instructions (44_keys_timers.md): SKP, SKNP, KEYD, MOVED, LOADD, LOADS. None writes `keys` (R156). -/

namespace Sys2Proof.Machine

/-- SKP vx: skip if the key with index vx is pressed; KeyIndexFault when vx > 15 (R150). -/
def execSkp (x : Reg) (s : State) : Result := s.attempt (keyPressed keyIndexOor s.keys (s.reg x)) fun p => s.skipIf p

/-- SKNP vx: skip if the key with index vx is not pressed; KeyIndexFault when vx > 15 (R151). -/
def execSknp (x : Reg) (s : State) : Result := s.attempt (keyPressed keyIndexOor s.keys (s.reg x)) fun p => s.skipIf (!p)

/-- KEYD vx: the lowest pressed key to vx; with none pressed `pc <- pc - 2`, so that the next cycle fetches this KEYD
again (R152). -/
def execKeyd (x : Reg) (s : State) : Result :=
  match lowestKey s.keys with
  | some k => .next (s.setReg x (BitVec.ofNat 8 k))
  | none => .next (s.setPc (s.pc - 2))

/-- MOVED vx: `v[x] <- dt` (R153). -/
def execMoved (x : Reg) (s : State) : Result := .next (s.setReg x s.dt)

/-- LOADD vx: `dt <- v[x]` (R154). -/
def execLoadd (x : Reg) (s : State) : Result := .next (s.setDt (s.reg x))

/-- LOADS vx: `st <- v[x]` (R155). -/
def execLoads (x : Reg) (s : State) : Result := .next (s.setSt (s.reg x))

end Sys2Proof.Machine
end

