-- ==== Sys2Proof/Machine/HostEvents.lean ====
section
/-! DEFINITION. What the host's events do to the machine (60_exceptions.md R175, R178, R181, R182; 70_reset_and_hazards.md
R190), and its outputs (R177). -/

namespace Sys2Proof.Machine

/-- One timer's count down, "floored at 0" (R175). -/
def countDown (b : Byte) : Byte := if b = 0 then 0 else b - 1

/-- `Tick()`: both timers in the one event (R175; decision D27, log 27). -/
def State.tick (s : State) : State := { s with dt := countDown s.dt, st := countDown s.st }

/-- Reset "puts every piece of state at" its reset value, "whatever it held before" (R190). What the host does
afterwards, and how many bytes its random source has given, are the host's and go on (log 22). -/
def State.resetKeepingHost (s : State) : State := { State.reset with events := s.events, draws := s.draws }

/-- `Load(bytes)` (R182): a program of more than 3584 bytes raises LoadSizeViolation and nothing is copied (R166); else
its bytes go to 0x200 on, and nothing else changes (decision D20, log 4). -/
def State.load (s : State) (bytes : List Byte) : Result :=
  if bytes.length > 3584 then s.raise (.loadSizeViolation bytes.length)
  else .next { s with ram := s.ram.writeFrom .fault 0x200 bytes, loadOpen := false }

/-- The fault outputs and the two other outputs of R177, read between cycles without effect: video_out as 2048 cells in
order, st_out, halted_out, fault_out. -/
structure Outputs where
  videoOut : List Bool
  stOut : Byte
  haltedOut : Bool
  faultOut : Option FaultRecord
  deriving DecidableEq, Repr

/-- What the host sees of the machine (R177, R179). -/
def State.outputs (s : State) : Outputs where
  videoOut := (List.range 2048).map s.video.cell
  stOut := s.st
  haltedOut := s.halted
  faultOut := s.fault

end Sys2Proof.Machine
end

