-- ==== Sys2Proof/Machine/Cycle.lean ====
section
/-! DEFINITION. One instruction cycle (00_scope.md R10), one act of the host, and where an instruction is placed for the next
fetch. -/

namespace Sys2Proof.Machine

/-- The word the fetch phase reads: two bytes, the one at pc the high byte; none where "fewer than 2 bytes remain"
(20_memory.md R42, R48). Any parity of pc is fetched from (R43). -/
def State.fetchWord? (s : State) : Option Word :=
  if s.pc.toNat > 4094 then none
  else some (wordOfBytes (s.ram.read s.pc.toNat) (s.ram.read (s.pc.toNat + 1)))

/-- The writes of the fetch phase: `ir <- w; pc <- pc + 2` (R48). -/
def State.fetched (s : State) (w : Word) : State := { s with ir := w, pc := s.pc + 2 }

/-- From its first cycle on the machine takes no Load (60_exceptions.md R181; log 4). -/
def State.startCycle (s : State) : State := { s with loadOpen := false }

/-- The execute phase: the instruction that ir selects, or UnknownInstruction (30_encoding.md R65, R67). -/
def executeWord (s : State) : Result :=
  match decodeWord s.ir with
  | .ok i => exec i s
  | .error _ => s.raise (.unknownInstruction s.ir s.pc0)

/-- `Cycle()` of a machine that is not halted (R10): fetch, or InsufficientBytes with pc and ir unchanged; then execute. -/
def cycle (s : State) : Result :=
  let s := s.startCycle
  match s.fetchWord? with
  | none => s.raise (.insufficientBytes s.pc)
  | some w => executeWord (s.fetched w)

/-- `Run(n + 1)`: one cycle, with n more to come before the host's further acts `rest`; it "stops early only on a
fault", its remaining cycles not performed (R161, R181; log 26). -/
def State.runOne (s : State) (n : Nat) (rest : List HostEvent) : Result :=
  let more := if n = 0 then rest else .run n :: rest
  match cycle { s with events := more } with
  | .next t => .next (if t.halted then { t with events := rest } else t)
  | .fault f => .fault f
  | .refused q => .refused q

/-- One step: the next act of the host; with none listed, a cycle. A halted machine has no move but Reset (R161;
decision D23, log 1). Every act falls between two cycles (R181; decision D15). -/
def State.advance (s : State) : Result :=
  match s.events with
  | .reset :: rest => .next { s.resetKeepingHost with events := rest }
  | [] => if s.halted then .fault (.halted s.fault) else cycle s
  | .tick :: rest => if s.halted then .fault (.halted s.fault) else .next { s.tick with events := rest }
  | .setKeys k :: rest => if s.halted then .fault (.halted s.fault) else .next { s.setKeys k with events := rest }
  | .run 0 :: rest => if s.halted then .fault (.halted s.fault) else .next { s with events := rest }
  | .run (n + 1) :: rest => if s.halted then .fault (.halted s.fault) else s.runOne n rest
  | .load bytes :: rest =>
    if s.halted then .fault (.halted s.fault)
    else if s.loadOpen then State.load { s with events := rest } bytes
    else .refused .loadOutOfTurn

/-- The two bytes of a word at pc and pc + 1, high byte first, where both exist. -/
def State.placeWord (s : State) (w : Word) : State :=
  if s.pc.toNat > 4094 then s
  else { s with ram := (s.ram.write s.pc.toNat (highByte w)).write (s.pc.toNat + 1) (lowByte w) }

/-- A machine whose next step is a cycle: not halted, and no act of the host first. -/
def State.readyToRun (s : State) : State := { s with halted := false, fault := none, events := [] }

end Sys2Proof.Machine
end

