-- ==== Sys2Proof/Machine/Step.lean ====
section
/-! DEFINITION. The step, and where the host places an instruction for it. -/

namespace Sys2Proof.Machine

/-- One step of the machine: one act of the host, an instruction cycle (00_scope.md R10) if none is listed. -/
def step (s : State) : Host.Outcome State Fault Refusal := s.advance

/-- s with the instruction word w (numbered as spec/opcode_table.json numbers it) where the next step fetches, for a pc up to 4094.
It stands for the host's Load of a program, and the next step is a cycle (log 6). Every row has 16 bits. -/
def State.withFetchWord (s : State) (_nbits w : Nat) : State := (s.placeWord (BitVec.ofNat 16 w)).readyToRun

end Sys2Proof.Machine
end

