-- ==== Sys2Proof/Safety.lean ====
section
/-! DEFINITION. The terms claims use: the parts of the state, what a frame leaves unchanged, which fault an instruction takes, the
invariant of every run, and the launch states. -/

namespace Sys2Proof.Machine

/-! ## Frames -/

/-- A part of the state, as fine as the spec names it: one register, one byte of ram, one cell of the framebuffer. -/
inductive Part where
  | reg (x : Reg)
  | pc
  | i
  | dt
  | st
  | sp
  | slot (k : Nat)
  | ir
  | byte (a : Nat)
  | cell (k : Nat)
  | keys
  | halted
  | fault
  | events
  | draws
  | loadOpen
  deriving DecidableEq, Repr

/-- Every part of the state but the listed ones is the same in t as in s: each register, each slot of the call stack,
EVERY BYTE of ram as `Memory.read` gives it, each cell of the framebuffer, and every other field. -/
structure Frame (changed : List Part) (s t : State) : Prop where
  reg : ∀ x, .reg x ∉ changed → t.reg x = s.reg x
  pc : .pc ∉ changed → t.pc = s.pc
  i : .i ∉ changed → t.i = s.i
  dt : .dt ∉ changed → t.dt = s.dt
  st : .st ∉ changed → t.st = s.st
  sp : .sp ∉ changed → t.sp = s.sp
  slot : ∀ k, .slot k ∉ changed → t.stack[k]? = s.stack[k]?
  ir : .ir ∉ changed → t.ir = s.ir
  byte : ∀ a, .byte a ∉ changed → t.ram.read a = s.ram.read a
  cell : ∀ k, .cell k ∉ changed → t.video.cell k = s.video.cell k
  keys : .keys ∉ changed → t.keys = s.keys
  halted : .halted ∉ changed → t.halted = s.halted
  fault : .fault ∉ changed → t.fault = s.fault
  events : .events ∉ changed → t.events = s.events
  draws : .draws ∉ changed → t.draws = s.draws
  loadOpen : .loadOpen ∉ changed → t.loadOpen = s.loadOpen

/-- The n bytes of ram from address a on. -/
def bytesAt (a n : Nat) : List Part := (List.range n).map fun k => .byte (a + k)

/-- All 2048 cells of the framebuffer. -/
def allCells : List Part := (List.range 2048).map .cell

/-- Registers v0 to v(n-1). -/
def regsUpTo (n : Nat) : List Part := (List.range n).map fun k => .reg (BitVec.ofNat 4 k)

/-- The parts of the state that an instruction may write in its execute phase, in the state s (10_state.md R35's column
"written by"; R20 to R34). -/
def writesOf (i : Instr) (s : State) : List Part :=
  match i with
  | .clr => allCells
  | .rts => [.sp, .pc]
  | .jump _ => [.pc]
  | .call _ => [.slot s.sp.toNat, .sp, .pc]
  | .ske _ _ => [.pc]
  | .skne _ _ => [.pc]
  | .skre _ _ => [.pc]
  | .skrne _ _ => [.pc]
  | .load x _ => [.reg x]
  | .add x _ => [.reg x]
  | .move x _ => [.reg x]
  | .or x _ => [.reg x]
  | .and x _ => [.reg x]
  | .xor x _ => [.reg x]
  | .addr x _ => [.reg x, .reg 0xF]
  | .sub x _ => [.reg x, .reg 0xF]
  | .subn x _ => [.reg x, .reg 0xF]
  | .shr x _ => [.reg x, .reg 0xF]
  | .shl x _ => [.reg x, .reg 0xF]
  | .loadi _ => [.i]
  | .jumpi _ => [.pc]
  | .rand x _ => [.reg x, .draws]
  | .draw _ _ _ => .reg 0xF :: allCells
  | .skp _ => [.pc]
  | .sknp _ => [.pc]
  | .moved x => [.reg x]
  | .keyd x => [.reg x, .pc]
  | .loadd _ => [.dt]
  | .loads _ => [.st]
  | .addi _ => [.i]
  | .ldspr _ => [.i]
  | .bcd _ => bytesAt s.i.toNat 3
  | .stor x => bytesAt s.i.toNat x.toNat
  | .read x => regsUpTo (x.toNat + 1)

/-! ## Faults -/

/-- The access of n bytes from i on passes 0xFFF (20_memory.md R46, R47). -/
def addressFaultIn (s : State) (n : Nat) : Option FaultRecord :=
  if 0 < n ∧ s.i.toNat + n > 4096 then some (.addressFault s.i n) else none

/-- The key index in register x does not exist (44_keys_timers.md R150). -/
def keyFaultIn (s : State) (x : Reg) : Option FaultRecord :=
  if (s.reg x).toNat > 15 then some (.keyIndexFault (s.reg x)) else none

/-- The fault the instruction takes in its execute phase, if any: the rows of 60_exceptions.md R160 with code 3, 4, 6 and 7. -/
def faultOf (i : Instr) (s : State) : Option FaultRecord :=
  match i with
  | .rts => if s.sp = 0 then some (.stackUnderflow (s.pc - 2)) else none
  | .call _ => if s.sp = 16 then some (.stackOverflow (s.pc - 2)) else none
  | .draw _ _ n => addressFaultIn s n.toNat
  | .bcd _ => addressFaultIn s 3
  | .stor x => addressFaultIn s x.toNat
  | .read x => addressFaultIn s (x.toNat + 1)
  | .skp x => keyFaultIn s x
  | .sknp x => keyFaultIn s x
  | .clr => none
  | .jump _ => none
  | .ske _ _ => none
  | .skne _ _ => none
  | .skre _ _ => none
  | .skrne _ _ => none
  | .load _ _ => none
  | .add _ _ => none
  | .move _ _ => none
  | .or _ _ => none
  | .and _ _ => none
  | .xor _ _ => none
  | .addr _ _ => none
  | .sub _ _ => none
  | .subn _ _ => none
  | .shr _ _ => none
  | .shl _ _ => none
  | .loadi _ => none
  | .jumpi _ => none
  | .rand _ _ => none
  | .moved _ => none
  | .keyd _ => none
  | .loadd _ => none
  | .loads _ => none
  | .addi _ => none
  | .ldspr _ => none

/-! ## The sprite, pixel by pixel -/

/-- Sprite row r, column c has a set bit: bit 7 - c of the byte at i + r (43_display.md R141, decision D5). -/
def spriteBit (s : State) (n : Nat) (r c : Nat) : Bool :=
  decide (r < n) && (s.ram.read (s.i.toNat + r)).getLsbD (7 - c)

/-- The sprite row, or column, that falls on a screen row, or column, when the sprite starts at `start` on a screen of the given
size, with wrap-around. -/
def spriteOffset (size start at_ : Nat) : Nat := (at_ + size - start) % size

/-- The sprite of DRAW vx,vy,n has a set bit on cell k = 64 * cy + cx: there is one sprite row and column that falls on it, the
rows taken modulo 32 and the columns modulo 64 (R141 (b), (f)). -/
def spriteCovers (s : State) (x y : Reg) (n : Nat) (k : Nat) : Bool :=
  let r := spriteOffset 32 ((s.reg y).toNat % 32) (k / 64)
  let c := spriteOffset 64 ((s.reg x).toNat % 64) (k % 64)
  decide (c < 8) && spriteBit s n r c

/-! ## Whole states -/

/-- What every run keeps (10_state.md R23, R27, R33; 20_memory.md R40): ram has its canonical form, so no address above 0xFFF holds
a byte; the stack count is at most 16; pc is at most 0x10FE; every pending return address is one that CALL can have pushed; the
machine is halted exactly when a fault is recorded. -/
structure State.Inv (s : State) : Prop where
  ram_wf : s.ram.wf = true
  sp_le : s.sp.toNat ≤ 16
  pc_le : s.pc.toNat ≤ 0x10FE
  slots : ∀ k a, k < s.sp.toNat → s.stack[k]? = some a → 2 ≤ a.toNat ∧ a.toNat ≤ 4096
  halted_iff : s.halted = s.fault.isSome

/-- A launch state under RESET_FILL = free (00_scope.md R5; 70_reset_and_hazards.md R192): what the source gives for reset holds (pc,
the empty stack, no fault), and v, i, dt, st, video, keys and ram are arbitrary. -/
structure State.isLaunch (s : State) : Prop where
  pc : s.pc = 0x0200
  sp : s.sp = 0
  halted : s.halted = false
  fault : s.fault = none
  ram_wf : s.ram.wf = true
  loadOpen : s.loadOpen = true

/-- The host lists no act and the machine is not halted: the next step is a cycle. -/
def State.runs (s : State) : Prop := s.events = [] ∧ s.halted = false

/-- The next step is a cycle of a machine that is not halted: the host lists no act, or its next act is a Run with a cycle left. `rest` is
what the host lists after that Run: "`run` stops at the faulting cycle with its remaining cycles not performed" (60_exceptions.md R161). -/
def State.cyclesNext (s : State) (rest : List HostEvent) : Prop :=
  s.halted = false ∧ (s.events = [] ∧ rest = [] ∨ ∃ n, s.events = .run (n + 1) :: rest)

/-- How many steps an act of the host takes where no cycle of it faults: a Run its cycles, and one for a Run of none (log 26). -/
def HostEvent.steps : HostEvent → Nat
  | .run n => max n 1
  | .reset => 1
  | .load _ => 1
  | .tick => 1
  | .setKeys _ => 1

/-- The access of n bytes from i on stays in ram, or moves no byte (20_memory.md R46, R47). -/
def State.reaches (s : State) (n : Nat) : Prop := n = 0 ∨ s.i.toNat + n ≤ 4096

/-- Every word of a row of the opcode table, given by its match and mask, decodes to the instruction f takes from its fields
(30_encoding.md R61, R66). -/
def RowDecodes (row mask : Word) (f : Word → Instr) : Prop := ∀ w : Word, w &&& mask = row → decodeWord w = .ok (f w)

end Sys2Proof.Machine
end

