-- ==== Sys2Proof/Certificates/Slice0/Obligations.lean ====
section
/-! DEFINITION. The statements for the provers, listed in OBLIGATIONS.json. Those about an instruction speak of its execute phase,
which starts with pc already at the next instruction (40_control_flow.md R108); StepRunsTheDecodedInstruction carries them to a
step. The parts that a `Frame` does not list are unchanged: every other register, every byte of ram, every cell, every other field. -/

open Sys2Proof Sys2Proof.Machine

/-! ## Encoding (30_encoding.md) -/

/-- Decoding the word of an instruction gives that instruction back, every operand at every value (R61, R66). The numbers of 29 rows
and the places of y and n are the spec's decisions D1, D2 (log 10). -/
def Obligations.DecodeOfEncodeIsTheInstruction : Prop :=
  ∀ i : Instr, decodeWord (encode i) = .ok i ∧ decode (encodeBytes i) = .ok (i, [])

/-- A word that decodes is the word of the instruction it decodes to: no bit of it is dropped, the ignored bits y of SHR and SHL
included (R68; decisions D1, D2, D4). -/
def Obligations.EncodeOfDecodeIsTheWord : Prop :=
  ∀ (w : Word) (i : Instr), decodeWord w = .ok i → encode i = w

/-- "The decoder is total: every one of the 65536 words either selects exactly one instruction or is unknown. No two rows of rule R66
overlap" (R65): a word decodes to an instruction of a row exactly when it matches the row, it is unknown exactly when it matches
none, and it never matches two (the rows' numbers: decision D1, log 10). -/
def Obligations.RowsSelectTheInstruction : Prop :=
  ∀ w : Word,
    (∀ r ∈ opcodeRows, (w &&& r.matchMask.2 = r.matchMask.1 ↔ ∃ i, decodeWord w = .ok i ∧ i.matchMask = r.matchMask)) ∧
    (decodeWord w = .error (.unknownInstruction w) ↔ ∀ r ∈ opcodeRows, w &&& r.matchMask.2 ≠ r.matchMask.1) ∧
    (∀ r ∈ opcodeRows, ∀ r' ∈ opcodeRows,
      w &&& r.matchMask.2 = r.matchMask.1 → w &&& r'.matchMask.2 = r'.matchMask.1 → r = r')

/-- Each of the 34 rows of R66's table, given by its match and mask, decodes to its own instruction with its operands read from
R61's fields, whatever the other bits are (decisions D1, D2: the numbers of 29 rows and the places of y and n are the spec's choice, log
10; D4: the y of SHR and SHL is kept and ignored, log 11). -/
def Obligations.EachRowDecodesToItsInstruction : Prop :=
  RowDecodes 0x00E0 0xFFFF (fun _ => .clr) ∧
  RowDecodes 0x00EE 0xFFFF (fun _ => .rts) ∧
  RowDecodes 0x1000 0xF000 (fun w => .jump (fieldNNN w)) ∧
  RowDecodes 0x2000 0xF000 (fun w => .call (fieldNNN w)) ∧
  RowDecodes 0x3000 0xF000 (fun w => .ske (fieldX w) (fieldNN w)) ∧
  RowDecodes 0x4000 0xF000 (fun w => .skne (fieldX w) (fieldNN w)) ∧
  RowDecodes 0x5000 0xF00F (fun w => .skre (fieldX w) (fieldY w)) ∧
  RowDecodes 0x9000 0xF00F (fun w => .skrne (fieldX w) (fieldY w)) ∧
  RowDecodes 0x6000 0xF000 (fun w => .load (fieldX w) (fieldNN w)) ∧
  RowDecodes 0x7000 0xF000 (fun w => .add (fieldX w) (fieldNN w)) ∧
  RowDecodes 0x8000 0xF00F (fun w => .move (fieldX w) (fieldY w)) ∧
  RowDecodes 0x8001 0xF00F (fun w => .or (fieldX w) (fieldY w)) ∧
  RowDecodes 0x8002 0xF00F (fun w => .and (fieldX w) (fieldY w)) ∧
  RowDecodes 0x8003 0xF00F (fun w => .xor (fieldX w) (fieldY w)) ∧
  RowDecodes 0x8004 0xF00F (fun w => .addr (fieldX w) (fieldY w)) ∧
  RowDecodes 0x8005 0xF00F (fun w => .sub (fieldX w) (fieldY w)) ∧
  RowDecodes 0x8007 0xF00F (fun w => .subn (fieldX w) (fieldY w)) ∧
  RowDecodes 0x8006 0xF00F (fun w => .shr (fieldX w) (fieldY w)) ∧
  RowDecodes 0x800E 0xF00F (fun w => .shl (fieldX w) (fieldY w)) ∧
  RowDecodes 0xA000 0xF000 (fun w => .loadi (fieldNNN w)) ∧
  RowDecodes 0xB000 0xF000 (fun w => .jumpi (fieldNNN w)) ∧
  RowDecodes 0xC000 0xF000 (fun w => .rand (fieldX w) (fieldNN w)) ∧
  RowDecodes 0xD000 0xF000 (fun w => .draw (fieldX w) (fieldY w) (fieldN w)) ∧
  RowDecodes 0xE09E 0xF0FF (fun w => .skp (fieldX w)) ∧
  RowDecodes 0xE0A1 0xF0FF (fun w => .sknp (fieldX w)) ∧
  RowDecodes 0xF007 0xF0FF (fun w => .moved (fieldX w)) ∧
  RowDecodes 0xF00A 0xF0FF (fun w => .keyd (fieldX w)) ∧
  RowDecodes 0xF015 0xF0FF (fun w => .loadd (fieldX w)) ∧
  RowDecodes 0xF018 0xF0FF (fun w => .loads (fieldX w)) ∧
  RowDecodes 0xF01E 0xF0FF (fun w => .addi (fieldX w)) ∧
  RowDecodes 0xF029 0xF0FF (fun w => .ldspr (fieldX w)) ∧
  RowDecodes 0xF033 0xF0FF (fun w => .bcd (fieldX w)) ∧
  RowDecodes 0xF055 0xF0FF (fun w => .stor (fieldX w)) ∧
  RowDecodes 0xF065 0xF0FF (fun w => .read (fieldX w))

/-- The unknown words, group by group, as R67's table lists them (decisions D1, D3, D4; log 10, 11). -/
def Obligations.UnknownWordsAreTheListedOnes : Prop :=
  ∀ w : Word, decodeWord w = .error (.unknownInstruction w) ↔
    (fieldGroup w = 0x0 ∧ w ≠ 0x00E0 ∧ w ≠ 0x00EE) ∨
    (fieldGroup w = 0x5 ∧ fieldN w ≠ 0) ∨
    (fieldGroup w = 0x8 ∧ fieldN w ∈ ([0x8, 0x9, 0xA, 0xB, 0xC, 0xD, 0xF] : List Nibble)) ∨
    (fieldGroup w = 0x9 ∧ fieldN w ≠ 0) ∨
    (fieldGroup w = 0xE ∧ fieldNN w ∉ ([0x9E, 0xA1] : List Byte)) ∨
    (fieldGroup w = 0xF ∧ fieldNN w ∉ ([0x07, 0x0A, 0x15, 0x18, 0x1E, 0x29, 0x33, 0x55, 0x65] : List Byte))

/-- An instruction is two bytes, the first the high byte, and the bytes after it are left over; fewer than two bytes are the distinct
condition "insufficient bytes" (R60; 20_memory.md R42, R48). -/
def Obligations.DecodeTakesTwoBytesHighByteFirst : Prop :=
  decode [] = .error .insufficientBytes ∧
  (∀ b, decode [b] = .error .insufficientBytes) ∧
  (∀ (b0 b1 : Byte) (rest : List Byte) (w : Word), w.toNat = 256 * b0.toNat + b1.toNat →
    (∀ i, decodeWord w = .ok i → decode (b0 :: b1 :: rest) = .ok (i, rest)) ∧
    (∀ e, decodeWord w = .error e → decode (b0 :: b1 :: rest) = .error e))

/-- A few words of the spec's own vectors decode to what they stand for (95_test_vectors.md DE1 to DE12, S8). -/
def Obligations.SpecWordsDecodeAsListed : Prop :=
  decode [0x12, 0x34] = .ok (.jump 0x234, []) ∧
  decode [0x6A, 0x55] = .ok (.load 0xA 0x55, []) ∧
  decode [0xD1, 0x25] = .ok (.draw 1 2 5, []) ∧
  decode [0x8A, 0xB4] = .ok (.addr 0xA 0xB, []) ∧
  decode [0xE0, 0xA1] = .ok (.sknp 0, []) ∧
  decode [0xF0, 0x55] = .ok (.stor 0, []) ∧
  decode [0x01, 0xE0] = .error (.unknownInstruction 0x01E0)

/-! ## The cycle, the faults and the halt (00_scope.md, 20_memory.md, 60_exceptions.md) -/

/-- When the bytes at pc decode to an instruction, a step runs exactly it, with ir the fetched word and pc past it (00_scope.md R10).
The same inside a Run of the host: its other cycles stay ahead, and a cycle that halts the machine ends the Run. The schedule
events, its Runs and loadOpen are the model's own (log 3, 26, 4). -/
def Obligations.StepRunsTheDecodedInstruction : Prop :=
  ∀ (s : State) (w : Word) (i : Instr), s.halted = false → s.pc.toNat ≤ 4094 →
    w.toNat = 256 * (s.ram.read s.pc.toNat).toNat + (s.ram.read (s.pc.toNat + 1)).toNat → decodeWord w = .ok i →
    (s.events = [] → step s = exec i { s with ir := w, pc := s.pc + 2, loadOpen := false }) ∧
    (∀ n rest, s.events = .run (n + 1) :: rest →
      ∀ t, exec i { s with ir := w, pc := s.pc + 2, loadOpen := false, events := if n = 0 then rest else .run n :: rest } = .next t →
        step s = .next (if t.halted then { t with events := rest } else t))

/-- The fetch reads the word at pc, high byte first, and advances pc by 2; with fewer than two bytes left it faults, and neither pc nor
ir changes (20_memory.md "Instruction fetch"). A cycle that starts by itself or inside a Run alike; the Run's other cycles are not
performed after the fault (60_exceptions.md "What a fault does"). The model's choices in it: how a halt is recorded is decision D13
(log 2), the schedule is log 3 and 26, loadOpen is log 4. -/
def Obligations.FetchReadsTwoBytesOrFaults : Prop :=
  (∀ (s : State) (rest : List HostEvent), s.cyclesNext rest → s.pc.toNat > 4094 →
    step s = .next { s with halted := true, fault := some (.insufficientBytes s.pc), loadOpen := false, events := rest }) ∧
  (∀ s : State, s.pc.toNat ≤ 4094 → ∃ w, s.fetchWord? = some w ∧
    w.toNat = 256 * (s.ram.read s.pc.toNat).toNat + (s.ram.read (s.pc.toNat + 1)).toNat ∧
    (s.fetched w).ir = w ∧ (s.fetched w).pc.toNat = s.pc.toNat + 2 ∧
    Frame [.ir, .pc] s (s.fetched w))

/-- A fetched word that is no instruction halts the machine with the word and its address; the fetch phase has been performed and nothing
else (60_exceptions.md "DecodeFault.UnknownInstruction"). A cycle that starts by itself or inside a Run alike; the Run's other cycles
are not performed. The model's choices in it: how a halt is recorded is decision D13 (log 2), the schedule is log 3 and 26, loadOpen is
log 4. -/
def Obligations.UnknownInstructionHalts : Prop :=
  ∀ (s : State) (rest : List HostEvent) (w : Word), s.cyclesNext rest → s.fetchWord? = some w → (∀ i, decodeWord w ≠ .ok i) →
    step s = .next { s with
      ir := w, pc := s.pc + 2, halted := true, fault := some (.unknownInstruction w s.pc), loadOpen := false, events := rest }

/-- A halted machine has no step but Reset (60_exceptions.md "What a fault does"; decisions D13, D23; log 1). That Reset keeps the rest of
the schedule and the count of draws, the model's own fields, is log 22. -/
def Obligations.HaltedMachineHasNoStepButReset : Prop :=
  ∀ s : State, s.halted = true →
    ((∀ rest, s.events ≠ .reset :: rest) → step s = .fault (.halted s.fault)) ∧
    (∀ rest, s.events = .reset :: rest → step s = .next { State.reset with events := rest, draws := s.draws })

/-- Each instruction takes its one fault when its condition holds, halting the machine and writing nothing else, and otherwise
completes without a fault (60_exceptions.md section 1; how a halt is recorded is decision D13, log 2; AddressFault and KeyIndexFault
are decisions D8, D9; log 13, 14). The premise
on sp is part of the invariant StepKeepsTheInvariant. -/
def Obligations.EveryInstructionCompletesOrFaults : Prop :=
  ∀ (i : Instr) (s : State), s.sp.toNat ≤ 16 →
    (∀ r, faultOf i s = some r → exec i s = .next { s with halted := true, fault := some r }) ∧
    (faultOf i s = none → ∃ t, exec i s = .next t ∧ t.halted = s.halted ∧ t.fault = s.fault)

/-- The codes of the seven faults (60_exceptions.md section 1; decision D16). -/
def Obligations.FaultCodesAreOneToSeven : Prop :=
  ∀ (a b : Word) (n : Nat) (k : Byte),
    (FaultRecord.insufficientBytes a).code = 1 ∧ (FaultRecord.unknownInstruction a b).code = 2 ∧
    (FaultRecord.stackOverflow a).code = 3 ∧ (FaultRecord.stackUnderflow a).code = 4 ∧
    (FaultRecord.loadSizeViolation n).code = 5 ∧ (FaultRecord.addressFault a n).code = 6 ∧
    (FaultRecord.keyIndexFault k).code = 7

/-! ## Reset and the invariant (10_state.md, 70_reset_and_hazards.md) -/

/-- The source gives pc = 0x200 and an empty stack for reset (70_reset_and_hazards.md R191, R192). That halted is false and no fault is
recorded is the spec's decision D13 (log 2); isLaunch adds loadOpen, the model's own field (log 4). -/
def Obligations.ResetStartsAtTheProgramBase : Prop :=
  State.reset.pc = 0x0200 ∧ State.reset.sp = 0 ∧ State.reset.halted = false ∧ State.reset.fault = none ∧ State.reset.isLaunch

/-- The spec's own choice of reset values, decisions D7, D19, D21 and the font of decision D6 (10_state.md section 8; log 8, 9): every
register, timer, slot, pixel and key zero; the 80 font bytes, a row here per glyph, glyph d at 5d; every other byte of ram zero. -/
def Obligations.ResetValuesChosenByTheSpec : Prop :=
  (∀ x, State.reset.reg x = 0) ∧ State.reset.i = 0 ∧ State.reset.dt = 0 ∧ State.reset.st = 0 ∧ State.reset.ir = 0 ∧
  (∀ k < 16, State.reset.stack[k]? = some 0) ∧ (∀ k, State.reset.video.cell k = false) ∧ State.reset.keys = 0 ∧
  (∀ a, 0x50 ≤ a → State.reset.ram.read a = 0) ∧
  State.reset.ram.readFrom dataOor 0x000 80 =
    [0xF0, 0x90, 0x90, 0x90, 0xF0] ++ [0x20, 0x60, 0x20, 0x20, 0x70] ++
    [0xF0, 0x10, 0xF0, 0x80, 0xF0] ++ [0xF0, 0x10, 0xF0, 0x10, 0xF0] ++
    [0x90, 0x90, 0xF0, 0x10, 0x10] ++ [0xF0, 0x80, 0xF0, 0x10, 0xF0] ++
    [0xF0, 0x80, 0xF0, 0x90, 0xF0] ++ [0xF0, 0x10, 0x20, 0x40, 0x40] ++
    [0xF0, 0x90, 0xF0, 0x90, 0xF0] ++ [0xF0, 0x90, 0xF0, 0x10, 0xF0] ++
    [0xF0, 0x90, 0xF0, 0x90, 0x90] ++ [0xE0, 0x90, 0xE0, 0x90, 0xE0] ++
    [0xF0, 0x80, 0x80, 0x80, 0xF0] ++ [0xE0, 0x90, 0x90, 0x90, 0xE0] ++
    [0xF0, 0x80, 0xF0, 0x80, 0xF0] ++ [0xF0, 0x80, 0xF0, 0x80, 0x80]

/-- The reset state, and every launch state of RESET_FILL = free, meets the invariant (00_scope.md R5; 70_reset_and_hazards.md). -/
def Obligations.LaunchStatesMeetTheInvariant : Prop :=
  State.reset.Inv ∧ ∀ s : State, s.isLaunch → s.Inv

/-- Every step, a cycle or an act of the host, keeps the invariant: ram in its form (no byte beyond 0xFFF), at most 16 pending return
addresses, pc at most 0x10FE, every pending return address between 2 and 4096, halted exactly when a fault is recorded
(10_state.md R23, R27, R29, R33). -/
def Obligations.StepKeepsTheInvariant : Prop :=
  ∀ s t : State, s.Inv → step s = .next t → t.Inv

/-! ## What an instruction may write and what it may depend on (10_state.md) -/

/-- No instruction changes a part of the state beyond those its rule names (10_state.md section 8, column "written by"; 41_arithmetic_logic.md
R125; 42_index_memory.md R136; 44_keys_timers.md R156), and the fault record where it faults. -/
def Obligations.ExecWritesOnlyItsParts : Prop :=
  ∀ (i : Instr) (s t : State), s.ram.wf = true → exec i s = .next t → Frame (writesOf i s ++ [.halted, .fault]) s t

/-- No instruction reads st (10_state.md R26): two states that differ in st alone go on alike, and differ in st alone. -/
def Obligations.NoInstructionReadsTheSoundTimer : Prop :=
  ∀ (i : Instr) (s t : State) (b : Byte), exec i s = .next t →
    ∃ u, exec i { s with st := b } = .next u ∧ { u with st := t.st } = t ∧ ((∀ x, i ≠ .loads x) → u.st = b)

/-- No instruction's execute phase reads ir beyond what was decoded from it (10_state.md R28), and none reads the host's fields. -/
def Obligations.NoInstructionReadsIrAgain : Prop :=
  ∀ (i : Instr) (s t : State) (w : Word) (es : List HostEvent) (l : Bool), exec i s = .next t →
    exec i { s with ir := w, events := es, loadOpen := l } = .next { t with ir := w, events := es, loadOpen := l }

/-- "Slots at index sp and above hold stale values that no instruction can read" (10_state.md R29): two states that differ in
those slots alone go on alike, and differ in such slots alone. -/
def Obligations.StaleStackSlotsAreNeverRead : Prop :=
  ∀ (i : Instr) (s t : State) (stack' : Vector Word 16), s.sp.toNat ≤ 16 →
    (∀ k < s.sp.toNat, stack'[k]? = s.stack[k]?) → exec i s = .next t →
    ∃ u, exec i { s with stack := stack' } = .next u ∧ { u with stack := t.stack } = t ∧
      ∀ k < t.sp.toNat, u.stack[k]? = t.stack[k]?

/-- "The parameters differ only in those cases" (93_implementation_defined.md Part 2): outside its corner every value of an
open parameter does what the default does. -/
def Obligations.OpenParametersDifferOnlyInTheirCorner : Prop :=
  (∀ (o : ShiftVfOrder) (s : State) (x : Reg) (bit : Byte → Bool) (sh : Byte → Byte), x ≠ 0xF →
    ∃ t, s.shiftReg o x bit sh = .ok t ∧ s.shiftReg shiftVfOrder x bit sh = .ok t) ∧
  (∀ (o : KeyIndexOor) (keys : BitVec 16) (k : Byte), k.toNat ≤ 15 → keyPressed o keys k = .ok (keys.getLsbD k.toNat)) ∧
  (∀ (o : IOverflow) (i : Word) (b : Byte), i.toNat + b.toNat ≤ 0xFFFF →
    ∃ a, indexSum o i b = .ok a ∧ a.toNat = i.toNat + b.toNat) ∧
  (∀ (d : DataOor) (m : Memory) (a : Word) (n : Nat), n = 0 ∨ a.toNat + n ≤ 4096 →
    memRead d m a n = memRead dataOor m a n) ∧
  (∀ (d : DataOor) (m : Memory) (a : Word) (bs : List Byte), bs.length = 0 ∨ a.toNat + bs.length ≤ 4096 →
    memWrite d m a bs = memWrite dataOor m a bs)

/-! ## Control flow (40_control_flow.md) -/

/-- RTS (R100's effect; its word is in EachRowDecodesToItsInstruction, decision D1; how a halt is recorded is decision D13, log 2). The vacated slot keeps its value. -/
def Obligations.RtsPopsTheReturnAddress : Prop :=
  (∀ s : State, s.sp = 0 → exec .rts s = .next { s with halted := true, fault := some (.stackUnderflow (s.pc - 2)) }) ∧
  (∀ s : State, 0 < s.sp.toNat → s.sp.toNat ≤ 16 →
    ∃ t a, exec .rts s = .next t ∧ t.sp.toNat = s.sp.toNat - 1 ∧ s.stack[s.sp.toNat - 1]? = some a ∧ t.pc = a ∧ Frame [.sp, .pc] s t)

/-- CALL nnn (R102's effect; its row is in EachRowDecodesToItsInstruction, decision D1; how a halt is recorded is decision D13, log 2): the
sixteenth is legal, the seventeenth overflows. -/
def Obligations.CallPushesTheNextAddress : Prop :=
  (∀ (nnn : Addr) (s : State), s.sp = 16 →
    exec (.call nnn) s = .next { s with halted := true, fault := some (.stackOverflow (s.pc - 2)) }) ∧
  (∀ (nnn : Addr) (s : State), s.sp.toNat < 16 →
    ∃ t, exec (.call nnn) s = .next t ∧ t.stack[s.sp.toNat]? = some s.pc ∧ t.sp.toNat = s.sp.toNat + 1 ∧
      t.pc.toNat = nnn.toNat ∧ Frame [.slot s.sp.toNat, .sp, .pc] s t)

/-- "CALL followed immediately by RTS restores `pc` to the instruction after the original CALL, for all reachable addresses" (R100), and
the stack count with it; u is the machine after the RTS's own fetch. -/
def Obligations.CallThenRtsResumesAfterTheCall : Prop :=
  ∀ (nnn : Addr) (s : State), s.sp.toNat < 16 →
    ∃ t, exec (.call nnn) s = .next t ∧
      ∀ u : State, u.sp = t.sp → u.stack = t.stack → ∃ r, exec .rts u = .next r ∧ r.pc = s.pc ∧ r.sp = s.sp

/-- JUMP (R101): the words of group 0x1 (the source gives 0x1200), and pc becomes the target, checked for nothing. -/
def Obligations.JumpGoesToItsTarget : Prop :=
  RowDecodes 0x1000 0xF000 (fun w => .jump (fieldNNN w)) ∧
  ∀ (nnn : Addr) (s : State), ∃ t, exec (.jump nnn) s = .next t ∧ t.pc.toNat = nnn.toNat ∧ Frame [.pc] s t

/-- SKE, SKNE, SKRE, SKRNE (the effects of R103 to R106; their rows are in EachRowDecodesToItsInstruction, decision D1): 2 is added to
pc when the comparison of the two 8-bit values holds, and nothing else changes. -/
def Obligations.SkipsMovePcByTwo : Prop :=
  (∀ (x : Reg) (nn : Byte) (s : State),
    ∃ t, exec (.ske x nn) s = .next t ∧ t.pc = (if s.reg x = nn then s.pc + 2 else s.pc) ∧ Frame [.pc] s t) ∧
  (∀ (x : Reg) (nn : Byte) (s : State),
    ∃ t, exec (.skne x nn) s = .next t ∧ t.pc = (if s.reg x ≠ nn then s.pc + 2 else s.pc) ∧ Frame [.pc] s t) ∧
  (∀ (x y : Reg) (s : State),
    ∃ t, exec (.skre x y) s = .next t ∧ t.pc = (if s.reg x = s.reg y then s.pc + 2 else s.pc) ∧ Frame [.pc] s t) ∧
  (∀ (x y : Reg) (s : State),
    ∃ t, exec (.skrne x y) s = .next t ∧ t.pc = (if s.reg x ≠ s.reg y then s.pc + 2 else s.pc) ∧ Frame [.pc] s t)

/-- JUMPI (40_control_flow.md; that the sum is neither masked nor wrapped is decision D24, log 19): pc is the exact sum. -/
def Obligations.JumpiAddsV0WithoutMask : Prop :=
  ∀ (nnn : Addr) (s : State),
    ∃ t, exec (.jumpi nnn) s = .next t ∧ t.pc.toNat = (s.reg 0).toNat + nnn.toNat ∧ Frame [.pc] s t

/-- A JUMP to its own address is an endless run, never a fault: however many steps, only ir has changed (and the model's own note
that the program has started, log 4), for a host that lists no act and so goes on running cycles (log 3) (95_test_vectors.md S9;
70_reset_and_hazards.md section 5). -/
def Obligations.SelfJumpRunsForEver : Prop :=
  ∀ (s : State) (w : Word) (nnn : Addr), s.runs → s.fetchWord? = some w → decodeWord w = .ok (.jump nnn) →
    s.pc.toNat = nnn.toNat → ∀ n : Nat, Host.Core.run Sys2Proof.core (n + 1) s = .next { s with ir := w, loadOpen := false }

/-! ## Load, arithmetic, logic, shift, random (41_arithmetic_logic.md) -/

/-- LOAD (R110) and ADD (R111): the words of groups 0x6 and 0x7 (the source gives 0x6005 and 0x7003); the value, modulo 256, and no
flag. -/
def Obligations.LoadAndAddWriteOneRegister : Prop :=
  RowDecodes 0x6000 0xF000 (fun w => .load (fieldX w) (fieldNN w)) ∧
  RowDecodes 0x7000 0xF000 (fun w => .add (fieldX w) (fieldNN w)) ∧
  (∀ (x : Reg) (nn : Byte) (s : State), ∃ t, exec (.load x nn) s = .next t ∧ t.reg x = nn ∧ Frame [.reg x] s t) ∧
  (∀ (x : Reg) (nn : Byte) (s : State),
    ∃ t, exec (.add x nn) s = .next t ∧ (t.reg x).toNat = ((s.reg x).toNat + nn.toNat) % 256 ∧ Frame [.reg x] s t)

/-- MOVE, and OR, AND, XOR bit by bit (the effects of R112 to R115; their rows are in EachRowDecodesToItsInstruction, decision D1); vF is
not written but as the destination. -/
def Obligations.MoveAndLogicWriteOneRegister : Prop :=
  (∀ (x y : Reg) (s : State), ∃ t, exec (.move x y) s = .next t ∧ t.reg x = s.reg y ∧ Frame [.reg x] s t) ∧
  (∀ (x y : Reg) (s : State), ∃ t, exec (.or x y) s = .next t ∧
    (∀ j, (t.reg x).getLsbD j = ((s.reg x).getLsbD j || (s.reg y).getLsbD j)) ∧ Frame [.reg x] s t) ∧
  (∀ (x y : Reg) (s : State), ∃ t, exec (.and x y) s = .next t ∧
    (∀ j, (t.reg x).getLsbD j = ((s.reg x).getLsbD j && (s.reg y).getLsbD j)) ∧ Frame [.reg x] s t) ∧
  (∀ (x y : Reg) (s : State), ∃ t, exec (.xor x y) s = .next t ∧
    (∀ j, (t.reg x).getLsbD j = ((s.reg x).getLsbD j ^^ (s.reg y).getLsbD j)) ∧ Frame [.reg x] s t)

/-- ADDR, SUB, SUBN for every x and y: the result modulo 256 in vx and the flag in vF; with x = 0xF the flag survives
(41_arithmetic_logic.md; that case is decision D12, log 16). -/
def Obligations.AddrSubSubnResultAndFlag : Prop :=
  (∀ (x y : Reg) (s : State), ∃ t, exec (.addr x y) s = .next t ∧
    t.reg 0xF = (if (s.reg x).toNat + (s.reg y).toNat > 255 then 1 else 0) ∧
    (x ≠ 0xF → (t.reg x).toNat = ((s.reg x).toNat + (s.reg y).toNat) % 256) ∧ Frame [.reg x, .reg 0xF] s t) ∧
  (∀ (x y : Reg) (s : State), ∃ t, exec (.sub x y) s = .next t ∧
    t.reg 0xF = (if (s.reg x).toNat ≥ (s.reg y).toNat then 1 else 0) ∧
    (x ≠ 0xF → (t.reg x).toNat = ((s.reg x).toNat + 256 - (s.reg y).toNat) % 256) ∧ Frame [.reg x, .reg 0xF] s t) ∧
  (∀ (x y : Reg) (s : State), ∃ t, exec (.subn x y) s = .next t ∧
    t.reg 0xF = (if (s.reg y).toNat ≥ (s.reg x).toNat then 1 else 0) ∧
    (x ≠ 0xF → (t.reg x).toNat = ((s.reg y).toNat + 256 - (s.reg x).toNat) % 256) ∧ Frame [.reg x, .reg 0xF] s t)

/-- SHR and SHL for every x and every value of the ignored y: the shift by one in vx, the bit that left in vF; with x = 0xF the shifted
value survives (41_arithmetic_logic.md; decisions D4 and D12, log 11, 16). -/
def Obligations.ShiftsKeepTheBitThatLeaves : Prop :=
  (∀ (x y : Reg) (s : State), ∃ t, exec (.shr x y) s = .next t ∧ (t.reg x).toNat = (s.reg x).toNat / 2 ∧
    (x ≠ 0xF → (t.reg 0xF).toNat = (s.reg x).toNat % 2) ∧ Frame [.reg x, .reg 0xF] s t) ∧
  (∀ (x y : Reg) (s : State), ∃ t, exec (.shl x y) s = .next t ∧ (t.reg x).toNat = 2 * (s.reg x).toNat % 256 ∧
    (x ≠ 0xF → (t.reg 0xF).toNat = (s.reg x).toNat / 128) ∧ Frame [.reg x, .reg 0xF] s t)

/-- RAND: the masked byte of the source, whatever byte it is, and one draw (41_arithmetic_logic.md; the byte is the free value
Config.randByte, decision D22, log 7). It holds for every function randByte. -/
def Obligations.RandMasksOneDrawnByte : Prop :=
  ∀ (x : Reg) (nn : Byte) (s : State), ∃ t, exec (.rand x nn) s = .next t ∧ t.draws = s.draws + 1 ∧
    (∀ j, (t.reg x).getLsbD j = (nn.getLsbD j && (Config.randByte s.draws).getLsbD j)) ∧ Frame [.reg x, .draws] s t

/-- R123, the polarity of every flag, for a destination other than vF (for vF see AddrSubSubnResultAndFlag and
ShiftsKeepTheBitThatLeaves): carry is a true sum of 256 or more; no borrow means that the stored difference is the true one, a borrow that it
is 256 more; shift-out is the bit that left; collision is a pixel that went from 1 to 0. vF is then 0x00 or 0x01. -/
def Obligations.FlagPolarity : Prop :=
  (∀ (x y : Reg) (s t : State), x ≠ 0xF → exec (.addr x y) s = .next t →
    (t.reg 0xF = 1 ↔ (s.reg x).toNat + (s.reg y).toNat ≥ 256) ∧ (t.reg 0xF = 0 ∨ t.reg 0xF = 1)) ∧
  (∀ (x y : Reg) (s t : State), x ≠ 0xF → exec (.sub x y) s = .next t →
    (t.reg 0xF = 1 ↔ (s.reg x).toNat ≥ (s.reg y).toNat) ∧ (t.reg 0xF = 0 ∨ t.reg 0xF = 1) ∧
    (t.reg 0xF = 1 → ((t.reg x).toNat : Int) = (s.reg x).toNat - (s.reg y).toNat) ∧
    (t.reg 0xF = 0 → ((t.reg x).toNat : Int) = (s.reg x).toNat - (s.reg y).toNat + 256)) ∧
  (∀ (x y : Reg) (s t : State), x ≠ 0xF → exec (.subn x y) s = .next t →
    (t.reg 0xF = 1 ↔ (s.reg y).toNat ≥ (s.reg x).toNat) ∧ (t.reg 0xF = 0 ∨ t.reg 0xF = 1) ∧
    (t.reg 0xF = 1 → ((t.reg x).toNat : Int) = (s.reg y).toNat - (s.reg x).toNat) ∧
    (t.reg 0xF = 0 → ((t.reg x).toNat : Int) = (s.reg y).toNat - (s.reg x).toNat + 256)) ∧
  (∀ (x y : Reg) (s t : State), x ≠ 0xF → exec (.shr x y) s = .next t →
    (t.reg 0xF = 1 ↔ (s.reg x).getLsbD 0 = true) ∧ (t.reg 0xF = 0 ∨ t.reg 0xF = 1)) ∧
  (∀ (x y : Reg) (s t : State), x ≠ 0xF → exec (.shl x y) s = .next t →
    (t.reg 0xF = 1 ↔ (s.reg x).getLsbD 7 = true) ∧ (t.reg 0xF = 0 ∨ t.reg 0xF = 1)) ∧
  (∀ (x y : Reg) (n : Nibble) (s t : State), s.reaches n.toNat → exec (.draw x y n) s = .next t →
    (t.reg 0xF = 1 ↔ ∃ k < 2048, s.video.cell k = true ∧ t.video.cell k = false) ∧ (t.reg 0xF = 0 ∨ t.reg 0xF = 1))

/-! ## Index register and memory (42_index_memory.md) -/

/-- LOADI (R130): the words of group 0xA (the source gives 0xA200); any 12-bit constant. -/
def Obligations.LoadiSetsTheIndex : Prop :=
  RowDecodes 0xA000 0xF000 (fun w => .loadi (fieldNNN w)) ∧
  ∀ (nnn : Addr) (s : State), ∃ t, exec (.loadi nnn) s = .next t ∧ t.i.toNat = nnn.toNat ∧ Frame [.i] s t

/-- ADDI and LDSPR (42_index_memory.md; that ADDI wraps modulo 65536 and sets no flag past 0xFFF, and that LDSPR masks nothing, are
decisions D10, D25; log 15, 20). -/
def Obligations.AddiAndLdsprComputeTheIndex : Prop :=
  (∀ (x : Reg) (s : State),
    ∃ t, exec (.addi x) s = .next t ∧ t.i.toNat = (s.i.toNat + (s.reg x).toNat) % 65536 ∧ Frame [.i] s t) ∧
  (∀ (x : Reg) (s : State), ∃ t, exec (.ldspr x) s = .next t ∧ t.i.toNat = 5 * (s.reg x).toNat ∧ Frame [.i] s t)

/-- BCD: three digits at i, i+1, i+2 that spell vx, and no other byte (42_index_memory.md). Where the three bytes do not fit,
EveryInstructionCompletesOrFaults says what happens (decision D8). -/
def Obligations.BcdStoresThreeDigits : Prop :=
  ∀ (x : Reg) (s : State), s.ram.wf = true → s.reaches 3 →
    ∃ (t : State) (h m u : Byte), exec (.bcd x) s = .next t ∧
      t.ram.read s.i.toNat = h ∧ t.ram.read (s.i.toNat + 1) = m ∧ t.ram.read (s.i.toNat + 2) = u ∧
      h.toNat ≤ 2 ∧ m.toNat ≤ 9 ∧ u.toNat ≤ 9 ∧ (s.reg x).toNat = 100 * h.toNat + 10 * m.toNat + u.toNat ∧
      Frame (bytesAt s.i.toNat 3) s t

/-- STOR: v[k] to i + k for every k below x, vx itself not stored, and no other byte; x = 0 stores nothing whatever i holds
(42_index_memory.md; out of range: EveryInstructionCompletesOrFaults, decision D8). -/
def Obligations.StorStoresRegistersBelowX : Prop :=
  ∀ (x : Reg) (s : State), s.ram.wf = true → s.reaches x.toNat →
    ∃ t, exec (.stor x) s = .next t ∧ (∀ k : Reg, k.toNat < x.toNat → t.ram.read (s.i.toNat + k.toNat) = s.reg k) ∧
      Frame (bytesAt s.i.toNat x.toNat) s t

/-- READ: v[k] from i + k for every k up to x, vx included, and no other register (42_index_memory.md; out of range:
EveryInstructionCompletesOrFaults, decision D8). -/
def Obligations.ReadLoadsRegistersUpToX : Prop :=
  ∀ (x : Reg) (s : State), s.reaches (x.toNat + 1) →
    ∃ t, exec (.read x) s = .next t ∧ (∀ k : Reg, k.toNat ≤ x.toNat → t.reg k = s.ram.read (s.i.toNat + k.toNat)) ∧
      Frame (regsUpTo (x.toNat + 1)) s t

/-- "To save and restore v0 to vk: STOR v(k+1), then READ vk" (70_reset_and_hazards.md R198), for k up to 0xE: a later state u with the same i
and the same ram gets the saved registers back. -/
def Obligations.StorThenReadRestoresRegisters : Prop :=
  ∀ (k : Reg) (s : State), s.ram.wf = true → k.toNat ≤ 14 → s.reaches (k.toNat + 1) →
    ∃ t, exec (.stor (k + 1)) s = .next t ∧
      ∀ u : State, u.i = t.i → u.ram = t.ram →
        ∃ r, exec (.read k) u = .next r ∧ ∀ j : Reg, j.toNat ≤ k.toNat → r.reg j = s.reg j

/-- A byte written by STOR or BCD is what the next fetch reads (20_memory.md R52): no other act is needed in between. -/
def Obligations.StoredBytesAreFetched : Prop :=
  (∀ (x k : Reg) (s t : State) (pc : Word), s.ram.wf = true → s.reaches x.toNat → k.toNat + 1 < x.toNat →
    pc.toNat = s.i.toNat + k.toNat → exec (.stor x) s = .next t →
    ∃ w, { t with pc := pc }.fetchWord? = some w ∧ w.toNat = 256 * (s.reg k).toNat + (s.reg (k + 1)).toNat) ∧
  (∀ (x : Reg) (s t : State) (pc : Word), s.ram.wf = true → s.reaches 3 → exec (.bcd x) s = .next t →
    (pc.toNat = s.i.toNat → ∃ w, { t with pc := pc }.fetchWord? = some w ∧
      w.toNat = 256 * ((s.reg x).toNat / 100) + (s.reg x).toNat / 10 % 10) ∧
    (pc.toNat = s.i.toNat + 1 → ∃ w, { t with pc := pc }.fetchWord? = some w ∧
      w.toNat = 256 * ((s.reg x).toNat / 10 % 10) + (s.reg x).toNat % 10))

/-! ## Display (43_display.md) -/

/-- CLR (R140's effect; its word is in EachRowDecodesToItsInstruction, decision D1). -/
def Obligations.ClrClearsTheFramebuffer : Prop :=
  ∀ s : State, ∃ t, exec .clr s = .next t ∧ (∀ k, t.video.cell k = false) ∧ Frame allCells s t

/-- DRAW, cell by cell: a cell that a set bit of the sprite falls on, with wrap-around, is inverted, every other cell keeps its value, and
vF is 1 exactly when some cell went from 1 to 0, else 0; nothing else changes (43_display.md; bit 7 leftmost and the latched
coordinates are decisions D5, D12; log 12, 16; out of range: EveryInstructionCompletesOrFaults, decision D8). -/
def Obligations.DrawInvertsExactlyTheSpriteCells : Prop :=
  ∀ (x y : Reg) (n : Nibble) (s : State), s.reaches n.toNat →
    ∃ t, exec (.draw x y n) s = .next t ∧
      (∀ k < 2048, t.video.cell k = (s.video.cell k ^^ spriteCovers s x y n.toNat k)) ∧
      (t.reg 0xF = 1 ↔ ∃ k < 2048, s.video.cell k = true ∧ t.video.cell k = false) ∧
      (t.reg 0xF = 0 ∨ t.reg 0xF = 1) ∧ Frame (.reg 0xF :: allCells) s t

/-- R143: the same DRAW twice, with i, vx, vy and the sprite bytes unchanged in between, gives the first framebuffer back, and the second
reports a collision exactly when the first turned some pixel from 0 to 1. t' is the machine at the second DRAW. -/
def Obligations.DoubleDrawRestoresTheFramebuffer : Prop :=
  ∀ (x y : Reg) (n : Nibble) (s : State), s.reaches n.toNat →
    ∃ t, exec (.draw x y n) s = .next t ∧
      ∀ t' : State, t'.video = t.video → t'.i = s.i → t'.reg x = s.reg x → t'.reg y = s.reg y →
        (∀ k < n.toNat, t'.ram.read (s.i.toNat + k) = s.ram.read (s.i.toNat + k)) →
        ∃ u, exec (.draw x y n) t' = .next u ∧ u.video = s.video ∧
          (u.reg 0xF = 1 ↔ ∃ k < 2048, s.video.cell k = false ∧ t.video.cell k = true)

/-! ## Keys and timers (44_keys_timers.md) -/

/-- SKP and SKNP, the key index at most 15 (44_keys_timers.md): exactly one of them skips. A larger index is the fault of
EveryInstructionCompletesOrFaults (decision D9, log 14). -/
def Obligations.KeySkipsTestTheNamedKey : Prop :=
  ∀ (x : Reg) (s : State), (s.reg x).toNat ≤ 15 →
    (∃ t, exec (.skp x) s = .next t ∧
      t.pc = (if s.keys.getLsbD (s.reg x).toNat = true then s.pc + 2 else s.pc) ∧ Frame [.pc] s t) ∧
    (∃ t, exec (.sknp x) s = .next t ∧
      t.pc = (if s.keys.getLsbD (s.reg x).toNat = true then s.pc else s.pc + 2) ∧ Frame [.pc] s t)

/-- KEYD (R152's effect; its row is in EachRowDecodesToItsInstruction, decision D1): the lowest pressed key, or, with none pressed, pc back by 2 and nothing else. -/
def Obligations.KeydTakesTheLowestKeyOrRetries : Prop :=
  (∀ (x : Reg) (s : State) (k : Nat), k < 16 → s.keys.getLsbD k = true → (∀ j < k, s.keys.getLsbD j = false) →
    ∃ t, exec (.keyd x) s = .next t ∧ (t.reg x).toNat = k ∧ Frame [.reg x] s t) ∧
  (∀ (x : Reg) (s : State), s.keys = 0 → ∃ t, exec (.keyd x) s = .next t ∧ t.pc = s.pc - 2 ∧ Frame [.pc] s t)

/-- While no key is pressed KEYD holds the program and not the machine (44_keys_timers.md KEYD, corner cases (a) to (c);
70_reset_and_hazards.md R199). With no act of the host listed, however many steps change nothing but ir (and the model's own note that the
program has started, log 4). With any acts made of Runs and Ticks listed (the schedule is log 3, a Run in it log 26), all of them are
performed, a retry for each cycle, each timer goes on counting down with every tick, and nothing else changes: the program is still at the
KEYD. -/
def Obligations.KeydWaitsInPlace : Prop :=
  (∀ (s : State) (w : Word) (x : Reg), s.runs → s.fetchWord? = some w → decodeWord w = .ok (.keyd x) → s.keys = 0 →
    ∀ n : Nat, Host.Core.run Sys2Proof.core (n + 1) s = .next { s with ir := w, loadOpen := false }) ∧
  (∀ (s : State) (w : Word) (x : Reg) (acts rest : List HostEvent), s.halted = false → s.events = acts ++ rest →
    s.fetchWord? = some w → decodeWord w = .ok (.keyd x) → s.keys = 0 → (∀ e ∈ acts, e = .tick ∨ ∃ n, e = .run n) →
    ∃ t, Host.Core.run Sys2Proof.core (acts.map HostEvent.steps).sum s = .next t ∧ t.events = rest ∧
      t.dt.toNat = s.dt.toNat - acts.count .tick ∧ t.st.toNat = s.st.toNat - acts.count .tick ∧ (t.ir = w ∨ t.ir = s.ir) ∧
      Frame [.ir, .dt, .st, .events, .loadOpen] s t)

/-- MOVED, LOADD, LOADS (the effects of R153 to R155; their rows are in EachRowDecodesToItsInstruction, decision D1). -/
def Obligations.TimerMoves : Prop :=
  (∀ (x : Reg) (s : State), ∃ t, exec (.moved x) s = .next t ∧ t.reg x = s.dt ∧ Frame [.reg x] s t) ∧
  (∀ (x : Reg) (s : State), ∃ t, exec (.loadd x) s = .next t ∧ t.dt = s.reg x ∧ Frame [.dt] s t) ∧
  (∀ (x : Reg) (s : State), ∃ t, exec (.loads x) s = .next t ∧ t.st = s.reg x ∧ Frame [.st] s t)

/-! ## The host's events (60_exceptions.md, 70_reset_and_hazards.md) -/

/-- Tick (60_exceptions.md; both timers in one event is decision D27): each timer loses 1, floored at 0, so a timer loaded with a is 0
after exactly a ticks, and nothing else changes. The list of acts is the model's own (log 3). -/
def Obligations.TicksCountBothTimersDown : Prop :=
  ∀ (n : Nat) (s : State) (rest : List HostEvent), s.halted = false → s.events = List.replicate n .tick ++ rest →
    ∃ t, Host.Core.run Sys2Proof.core n s = .next t ∧ t.dt.toNat = s.dt.toNat - n ∧ t.st.toNat = s.st.toNat - n ∧
      t.events = rest ∧ Frame [.dt, .st, .events] s t

/-- SetKeys writes the 16 keys, bit k logical key k, any key state at all, and nothing else (60_exceptions.md "Keyboard interface"; the
list of acts is the model's own, log 3). No instruction writes them, and of the host's acts only SetKeys and Reset do: after a step that is
neither, a cycle, a Tick, a Run or a Load, they are as before. -/
def Obligations.OnlySetKeysAndResetWriteTheKeys : Prop :=
  (∀ (s : State) (keys : BitVec 16) (rest : List HostEvent), s.halted = false → s.events = .setKeys keys :: rest →
    ∃ t, step s = .next t ∧ (∀ k < 16, t.keys.getLsbD k = keys.getLsbD k) ∧ t.events = rest ∧ Frame [.keys, .events] s t) ∧
  (∀ (i : Instr) (s t : State), exec i s = .next t → t.keys = s.keys) ∧
  (∀ s t : State, step s = .next t → (∀ keys rest, s.events ≠ .setKeys keys :: rest) → (∀ rest, s.events ≠ .reset :: rest) →
    t.keys = s.keys)

/-- Load in turn (60_exceptions.md; what it leaves alone is decision D20; the turn and the list of acts are the model's own, log 4, 3): the
bytes go to 0x200 on, verbatim, and no other byte changes. -/
def Obligations.LoadCopiesTheProgram : Prop :=
  ∀ (s : State) (bytes : List Byte) (rest : List HostEvent), s.halted = false → s.loadOpen = true → s.ram.wf = true →
    s.events = .load bytes :: rest → bytes.length ≤ 3584 →
    ∃ t, step s = .next t ∧ (∀ k b, bytes[k]? = some b → t.ram.read (0x200 + k) = b) ∧ t.events = rest ∧ t.loadOpen = false ∧
      Frame (.events :: .loadOpen :: bytesAt 0x200 bytes.length) s t

/-- A program longer than 3584 bytes halts the machine with its length, and no byte is copied; one of exactly 3584 bytes is accepted and
fills ram from 0x200 to 0xFFF (60_exceptions.md "LoadSizeViolation"). The model's choices in it: how a halt and the length are recorded is
decision D13 (log 2), the list of acts is log 3, the turn is loadOpen, log 4. -/
def Obligations.LoadIsBoundedBy3584Bytes : Prop :=
  ∀ (s : State) (bytes : List Byte) (rest : List HostEvent), s.halted = false → s.loadOpen = true →
    s.events = .load bytes :: rest →
    (bytes.length > 3584 →
      step s = .next { s with events := rest, halted := true, fault := some (.loadSizeViolation bytes.length) }) ∧
    (bytes.length = 3584 → s.ram.wf = true →
      ∃ t, step s = .next t ∧ t.halted = false ∧ ∀ a, 0x200 ≤ a → a ≤ 0xFFF → bytes[a - 0x200]? = some (t.ram.read a))

/-- A Load out of turn has no meaning (60_exceptions.md, the host's events; the model's own field loadOpen, log 4), and a cycle, by itself or
inside a Run (log 3, 26), ends the turn. -/
def Obligations.LoadOutOfTurnIsRefused : Prop :=
  (∀ (s : State) (bytes : List Byte) (rest : List HostEvent), s.halted = false → s.loadOpen = false →
    s.events = .load bytes :: rest → step s = .refused .loadOutOfTurn) ∧
  (∀ (s t : State) (rest : List HostEvent), s.cyclesNext rest → step s = .next t → t.loadOpen = false)

/-- Reset (70_reset_and_hazards.md section 1) puts every piece of the machine's state at its reset value, whatever it held, a halt included; the
host's own fields go on (log 22). -/
def Obligations.ResetEventRestoresTheResetState : Prop :=
  ∀ (s : State) (rest : List HostEvent), s.events = .reset :: rest →
    step s = .next { State.reset with events := rest, draws := s.draws }
end

