-- ==== Sys2Proof/Laws/Memory.lean ====
section
/-! SUPPORT. The laws of ram: a read after a write, and that every memory operation keeps the canonical form. -/

namespace Sys2Proof.Machine

variable (m : Memory)

/-! ## Reading -/

@[simp] theorem read_nil (a : Nat) : Memory.read [] a = Memory.background a := rfl

/-- In a canonical list that starts at `lo`, an address below `lo` is not listed. -/
theorem read_below {lo a : Nat} (h : Memory.wfFrom lo m = true) (ha : a < lo) : m.read a = Memory.background a := by
  induction m generalizing lo with
  | nil => rfl
  | cons c m ih =>
    obtain ⟨c, d⟩ := c
    simp only [Memory.wfFrom, Bool.and_eq_true, decide_eq_true_eq] at h
    have hc : c ≠ a := by omega
    simp only [Memory.read, hc, if_false]
    exact ih h.2 (by omega)

/-- A weaker lower bound holds too. -/
theorem wfFrom_mono {lo lo' : Nat} (h : Memory.wfFrom lo m = true) (hl : lo' ≤ lo) : Memory.wfFrom lo' m = true := by
  cases m with
  | nil => rfl
  | cons c m =>
    obtain ⟨c, d⟩ := c
    simp only [Memory.wfFrom, Bool.and_eq_true, decide_eq_true_eq] at h ⊢
    exact ⟨⟨⟨by omega, h.1.1.2⟩, h.1.2⟩, h.2⟩

/-! ## Writing -/

/-- A write keeps the canonical form. -/
theorem write_wfFrom {lo a : Nat} (b : Byte) (h : Memory.wfFrom lo m = true) (hl : lo ≤ a) (ha : a < 4096) :
    Memory.wfFrom lo (m.write a b) = true := by
  induction m generalizing lo with
  | nil => by_cases hb : b = Memory.background a <;> simp [Memory.write, Memory.wfFrom, hb, hl, ha]
  | cons c m ih =>
    obtain ⟨c, d⟩ := c
    have h' := h
    simp only [Memory.wfFrom, Bool.and_eq_true, decide_eq_true_eq, bne_iff_ne, ne_eq] at h'
    obtain ⟨⟨⟨hlc, hc⟩, hd⟩, hm⟩ := h'
    simp only [Memory.write]
    split
    · rename_i hac
      by_cases hb : b = Memory.background a
      · rw [if_pos hb]; exact h
      · rw [if_neg hb]; simp [Memory.wfFrom, hb, hl, ha, hc, hd, hm]; omega
    · split
      · rename_i hac
        subst hac
        by_cases hb : b = Memory.background a
        · rw [if_pos hb]; exact wfFrom_mono m hm (by omega)
        · rw [if_neg hb]; simp [Memory.wfFrom, hb, hl, ha, hm]
      · simp [Memory.wfFrom, hlc, hc, hd, ih hm (by omega)]

theorem write_wf {a : Nat} (b : Byte) (h : m.wf = true) (ha : a < 4096) : (m.write a b).wf = true :=
  write_wfFrom m b h (Nat.zero_le a) ha

/-- What a read gives after a write: the byte written at its address, the old byte elsewhere. -/
theorem read_writeFrom {lo a a' : Nat} (b : Byte) (h : Memory.wfFrom lo m = true) :
    (m.write a b).read a' = if a' = a then b else m.read a' := by
  induction m generalizing lo with
  | nil =>
    by_cases ha : a' = a
    · subst ha; by_cases hb : b = Memory.background a' <;> simp [Memory.write, Memory.read, hb]
    · by_cases hb : b = Memory.background a <;> simp [Memory.write, Memory.read, hb, ha, Ne.symm ha]
  | cons c m ih =>
    obtain ⟨c, d⟩ := c
    simp only [Memory.wfFrom, Bool.and_eq_true, decide_eq_true_eq, bne_iff_ne, ne_eq] at h
    obtain ⟨⟨⟨hlc, hc⟩, hd⟩, hm⟩ := h
    simp only [Memory.write]
    split
    · rename_i hac
      by_cases hb : b = Memory.background a
      · rw [if_pos hb]
        split
        · rename_i e; subst e
          have : c ≠ a' := by omega
          simp only [Memory.read, this, if_false]
          rw [read_below m hm (by omega), hb]
        · rfl
      · rw [if_neg hb]
        by_cases e : a' = a
        · simp [Memory.read, e]
        · simp [Memory.read, e, Ne.symm e]
    · split
      · rename_i hac
        subst hac
        by_cases hb : b = Memory.background a
        · rw [if_pos hb]
          by_cases e : a' = a
          · subst e; rw [read_below m hm (by omega), if_pos rfl, hb]
          · simp [Memory.read, e, Ne.symm e]
        · rw [if_neg hb]
          by_cases e : a' = a
          · simp [Memory.read, e]
          · simp [Memory.read, e, Ne.symm e]
      · rename_i h1 h2
        by_cases e : c = a'
        · subst e
          have : ¬ c = a := by omega
          simp [Memory.read, this]
        · simp only [Memory.read, e, if_false]
          exact ih hm

theorem read_write {a a' : Nat} (b : Byte) (h : m.wf = true) :
    (m.write a b).read a' = if a' = a then b else m.read a' := read_writeFrom m b h

theorem read_write_same {a : Nat} (b : Byte) (h : m.wf = true) : (m.write a b).read a = b := by
  rw [read_write m b h, if_pos rfl]

theorem read_write_other {a a' : Nat} (b : Byte) (h : m.wf = true) (hne : a' ≠ a) : (m.write a b).read a' = m.read a' := by
  rw [read_write m b h, if_neg hne]

/-! ## Ranges of bytes -/

theorem elementPlace_lt (d : DataOor) {a : Nat} (h : a < 4096) : elementPlace d a = some a := by simp [elementPlace, h]

/-- An element's place, where it has one, exists. -/
theorem elementPlace_some (d : DataOor) {a p : Nat} (h : elementPlace d a = some p) : p < 4096 := by
  unfold elementPlace at h
  split at h
  · cases h; assumption
  · cases d <;> simp at h
    omega

/-- Every write of a range keeps the canonical form, wherever it starts and however long it is. -/
theorem writeFrom_wf (d : DataOor) (a : Nat) (bs : List Byte) (h : m.wf = true) : (m.writeFrom d a bs).wf = true := by
  induction bs generalizing m a with
  | nil => exact h
  | cons b bs ih =>
    simp only [Memory.writeFrom]
    refine ih _ _ ?_
    cases hp : elementPlace d a with
    | none => exact h
    | some p => exact write_wf m b h (elementPlace_some d hp)

/-- What a read gives after a write of a range that exists. -/
theorem read_writeRange (d : DataOor) (a : Nat) (bs : List Byte) (h : m.wf = true) (hr : a + bs.length ≤ 4096) (a' : Nat) :
    (m.writeFrom d a bs).read a' = if a ≤ a' then bs.getD (a' - a) (m.read a') else m.read a' := by
  induction bs generalizing m a with
  | nil => simp [Memory.writeFrom]
  | cons b bs ih =>
    simp only [List.length_cons] at hr
    simp only [Memory.writeFrom, elementPlace_lt d (show a < 4096 by omega)]
    rw [ih _ _ (write_wf m b h (by omega)) (by omega), read_write m b h]
    by_cases h1 : a' = a
    · subst h1; simp [show ¬ a' + 1 ≤ a' by omega]
    · by_cases h2 : a ≤ a'
      · have e : a' - a = (a' - (a + 1)) + 1 := by omega
        simp [h1, h2, show a + 1 ≤ a' by omega, e]
      · simp [h1, h2, show ¬ a + 1 ≤ a' by omega]

theorem length_readFrom (d : DataOor) (a n : Nat) : (m.readFrom d a n).length = n := by
  induction n generalizing a with
  | zero => rfl
  | succ n ih => simp [Memory.readFrom, ih]

/-- The bytes of a range that exists. -/
theorem getElem?_readFrom (d : DataOor) (a n k : Nat) (hr : a + n ≤ 4096) (hk : k < n) :
    (m.readFrom d a n)[k]? = some (m.read (a + k)) := by
  induction n generalizing a k with
  | zero => omega
  | succ n ih =>
    simp only [Memory.readFrom, elementPlace_lt d (show a < 4096 by omega)]
    cases k with
    | zero => rfl
    | succ k => rw [List.getElem?_cons_succ, ih (a + 1) k (by omega) (by omega)]; congr 2; omega

/-! ## MemRead and MemWrite at the default (20_memory.md R46, R47) -/

theorem inRange_iff (a : Word) (n : Nat) : inRange a n = true ↔ n = 0 ∨ a.toNat + n ≤ 4096 := by
  simp [inRange]

/-- All that MemRead can do: the bytes, or AddressFault. -/
theorem memRead_cases (a : Word) (n : Nat) :
    ((n = 0 ∨ a.toNat + n ≤ 4096) ∧ memRead dataOor m a n = .ok (m.readFrom .fault a.toNat n)) ∨
    (0 < n ∧ 4096 < a.toNat + n ∧ memRead dataOor m a n = .raise (.addressFault a n)) := by
  by_cases h : inRange a n = true
  · exact .inl ⟨(inRange_iff a n).1 h, by simp [memRead, h, dataOor]⟩
  · have h' := mt (inRange_iff a n).2 h
    refine .inr ⟨by omega, by omega, by simp [memRead, h, outOfRange, dataOor]⟩

/-- All that MemWrite can do: the whole write, or AddressFault and nothing. -/
theorem memWrite_cases (a : Word) (bs : List Byte) :
    ((bs.length = 0 ∨ a.toNat + bs.length ≤ 4096) ∧ memWrite dataOor m a bs = .ok (m.writeFrom .fault a.toNat bs)) ∨
    (0 < bs.length ∧ 4096 < a.toNat + bs.length ∧ memWrite dataOor m a bs = .raise (.addressFault a bs.length)) := by
  by_cases h : inRange a bs.length = true
  · exact .inl ⟨(inRange_iff a bs.length).1 h, by simp [memWrite, h, dataOor]⟩
  · have h' := mt (inRange_iff a bs.length).2 h
    refine .inr ⟨by omega, by omega, by simp [memWrite, h, outOfRange, dataOor]⟩

end Sys2Proof.Machine
end

