-- ==== Sys2Proof/Laws/State.lean ====
section
/-! SUPPORT. One lemma per field per update of the state, each true by unfolding, so that no later proof unfolds an update. -/

namespace Sys2Proof.Machine

variable (s : State)

/-! ## setReg -/

@[simp] theorem setReg_pc (x : Reg) (b : Byte) : (s.setReg x b).pc = s.pc := rfl
@[simp] theorem setReg_i (x : Reg) (b : Byte) : (s.setReg x b).i = s.i := rfl
@[simp] theorem setReg_dt (x : Reg) (b : Byte) : (s.setReg x b).dt = s.dt := rfl
@[simp] theorem setReg_st (x : Reg) (b : Byte) : (s.setReg x b).st = s.st := rfl
@[simp] theorem setReg_sp (x : Reg) (b : Byte) : (s.setReg x b).sp = s.sp := rfl
@[simp] theorem setReg_stack (x : Reg) (b : Byte) : (s.setReg x b).stack = s.stack := rfl
@[simp] theorem setReg_ir (x : Reg) (b : Byte) : (s.setReg x b).ir = s.ir := rfl
@[simp] theorem setReg_ram (x : Reg) (b : Byte) : (s.setReg x b).ram = s.ram := rfl
@[simp] theorem setReg_video (x : Reg) (b : Byte) : (s.setReg x b).video = s.video := rfl
@[simp] theorem setReg_keys (x : Reg) (b : Byte) : (s.setReg x b).keys = s.keys := rfl
@[simp] theorem setReg_halted (x : Reg) (b : Byte) : (s.setReg x b).halted = s.halted := rfl
@[simp] theorem setReg_fault (x : Reg) (b : Byte) : (s.setReg x b).fault = s.fault := rfl
@[simp] theorem setReg_events (x : Reg) (b : Byte) : (s.setReg x b).events = s.events := rfl
@[simp] theorem setReg_draws (x : Reg) (b : Byte) : (s.setReg x b).draws = s.draws := rfl
@[simp] theorem setReg_loadOpen (x : Reg) (b : Byte) : (s.setReg x b).loadOpen = s.loadOpen := rfl

/-! ## setPc -/

@[simp] theorem setPc_v (a : Word) : (s.setPc a).v = s.v := rfl
@[simp] theorem setPc_pc (a : Word) : (s.setPc a).pc = a := rfl
@[simp] theorem setPc_i (a : Word) : (s.setPc a).i = s.i := rfl
@[simp] theorem setPc_dt (a : Word) : (s.setPc a).dt = s.dt := rfl
@[simp] theorem setPc_st (a : Word) : (s.setPc a).st = s.st := rfl
@[simp] theorem setPc_sp (a : Word) : (s.setPc a).sp = s.sp := rfl
@[simp] theorem setPc_stack (a : Word) : (s.setPc a).stack = s.stack := rfl
@[simp] theorem setPc_ir (a : Word) : (s.setPc a).ir = s.ir := rfl
@[simp] theorem setPc_ram (a : Word) : (s.setPc a).ram = s.ram := rfl
@[simp] theorem setPc_video (a : Word) : (s.setPc a).video = s.video := rfl
@[simp] theorem setPc_keys (a : Word) : (s.setPc a).keys = s.keys := rfl
@[simp] theorem setPc_halted (a : Word) : (s.setPc a).halted = s.halted := rfl
@[simp] theorem setPc_fault (a : Word) : (s.setPc a).fault = s.fault := rfl
@[simp] theorem setPc_events (a : Word) : (s.setPc a).events = s.events := rfl
@[simp] theorem setPc_draws (a : Word) : (s.setPc a).draws = s.draws := rfl
@[simp] theorem setPc_loadOpen (a : Word) : (s.setPc a).loadOpen = s.loadOpen := rfl
@[simp] theorem setPc_reg (a : Word) (r : Reg) : (s.setPc a).reg r = s.reg r := rfl

/-! ## setI -/

@[simp] theorem setI_v (a : Word) : (s.setI a).v = s.v := rfl
@[simp] theorem setI_pc (a : Word) : (s.setI a).pc = s.pc := rfl
@[simp] theorem setI_i (a : Word) : (s.setI a).i = a := rfl
@[simp] theorem setI_dt (a : Word) : (s.setI a).dt = s.dt := rfl
@[simp] theorem setI_st (a : Word) : (s.setI a).st = s.st := rfl
@[simp] theorem setI_sp (a : Word) : (s.setI a).sp = s.sp := rfl
@[simp] theorem setI_stack (a : Word) : (s.setI a).stack = s.stack := rfl
@[simp] theorem setI_ir (a : Word) : (s.setI a).ir = s.ir := rfl
@[simp] theorem setI_ram (a : Word) : (s.setI a).ram = s.ram := rfl
@[simp] theorem setI_video (a : Word) : (s.setI a).video = s.video := rfl
@[simp] theorem setI_keys (a : Word) : (s.setI a).keys = s.keys := rfl
@[simp] theorem setI_halted (a : Word) : (s.setI a).halted = s.halted := rfl
@[simp] theorem setI_fault (a : Word) : (s.setI a).fault = s.fault := rfl
@[simp] theorem setI_events (a : Word) : (s.setI a).events = s.events := rfl
@[simp] theorem setI_draws (a : Word) : (s.setI a).draws = s.draws := rfl
@[simp] theorem setI_loadOpen (a : Word) : (s.setI a).loadOpen = s.loadOpen := rfl
@[simp] theorem setI_reg (a : Word) (r : Reg) : (s.setI a).reg r = s.reg r := rfl

/-! ## setDt -/

@[simp] theorem setDt_v (b : Byte) : (s.setDt b).v = s.v := rfl
@[simp] theorem setDt_pc (b : Byte) : (s.setDt b).pc = s.pc := rfl
@[simp] theorem setDt_i (b : Byte) : (s.setDt b).i = s.i := rfl
@[simp] theorem setDt_dt (b : Byte) : (s.setDt b).dt = b := rfl
@[simp] theorem setDt_st (b : Byte) : (s.setDt b).st = s.st := rfl
@[simp] theorem setDt_sp (b : Byte) : (s.setDt b).sp = s.sp := rfl
@[simp] theorem setDt_stack (b : Byte) : (s.setDt b).stack = s.stack := rfl
@[simp] theorem setDt_ir (b : Byte) : (s.setDt b).ir = s.ir := rfl
@[simp] theorem setDt_ram (b : Byte) : (s.setDt b).ram = s.ram := rfl
@[simp] theorem setDt_video (b : Byte) : (s.setDt b).video = s.video := rfl
@[simp] theorem setDt_keys (b : Byte) : (s.setDt b).keys = s.keys := rfl
@[simp] theorem setDt_halted (b : Byte) : (s.setDt b).halted = s.halted := rfl
@[simp] theorem setDt_fault (b : Byte) : (s.setDt b).fault = s.fault := rfl
@[simp] theorem setDt_events (b : Byte) : (s.setDt b).events = s.events := rfl
@[simp] theorem setDt_draws (b : Byte) : (s.setDt b).draws = s.draws := rfl
@[simp] theorem setDt_loadOpen (b : Byte) : (s.setDt b).loadOpen = s.loadOpen := rfl
@[simp] theorem setDt_reg (b : Byte) (r : Reg) : (s.setDt b).reg r = s.reg r := rfl

/-! ## setSt -/

@[simp] theorem setSt_v (b : Byte) : (s.setSt b).v = s.v := rfl
@[simp] theorem setSt_pc (b : Byte) : (s.setSt b).pc = s.pc := rfl
@[simp] theorem setSt_i (b : Byte) : (s.setSt b).i = s.i := rfl
@[simp] theorem setSt_dt (b : Byte) : (s.setSt b).dt = s.dt := rfl
@[simp] theorem setSt_st (b : Byte) : (s.setSt b).st = b := rfl
@[simp] theorem setSt_sp (b : Byte) : (s.setSt b).sp = s.sp := rfl
@[simp] theorem setSt_stack (b : Byte) : (s.setSt b).stack = s.stack := rfl
@[simp] theorem setSt_ir (b : Byte) : (s.setSt b).ir = s.ir := rfl
@[simp] theorem setSt_ram (b : Byte) : (s.setSt b).ram = s.ram := rfl
@[simp] theorem setSt_video (b : Byte) : (s.setSt b).video = s.video := rfl
@[simp] theorem setSt_keys (b : Byte) : (s.setSt b).keys = s.keys := rfl
@[simp] theorem setSt_halted (b : Byte) : (s.setSt b).halted = s.halted := rfl
@[simp] theorem setSt_fault (b : Byte) : (s.setSt b).fault = s.fault := rfl
@[simp] theorem setSt_events (b : Byte) : (s.setSt b).events = s.events := rfl
@[simp] theorem setSt_draws (b : Byte) : (s.setSt b).draws = s.draws := rfl
@[simp] theorem setSt_loadOpen (b : Byte) : (s.setSt b).loadOpen = s.loadOpen := rfl
@[simp] theorem setSt_reg (b : Byte) (r : Reg) : (s.setSt b).reg r = s.reg r := rfl

/-! ## setRam -/

@[simp] theorem setRam_v (m : Memory) : (s.setRam m).v = s.v := rfl
@[simp] theorem setRam_pc (m : Memory) : (s.setRam m).pc = s.pc := rfl
@[simp] theorem setRam_i (m : Memory) : (s.setRam m).i = s.i := rfl
@[simp] theorem setRam_dt (m : Memory) : (s.setRam m).dt = s.dt := rfl
@[simp] theorem setRam_st (m : Memory) : (s.setRam m).st = s.st := rfl
@[simp] theorem setRam_sp (m : Memory) : (s.setRam m).sp = s.sp := rfl
@[simp] theorem setRam_stack (m : Memory) : (s.setRam m).stack = s.stack := rfl
@[simp] theorem setRam_ir (m : Memory) : (s.setRam m).ir = s.ir := rfl
@[simp] theorem setRam_ram (m : Memory) : (s.setRam m).ram = m := rfl
@[simp] theorem setRam_video (m : Memory) : (s.setRam m).video = s.video := rfl
@[simp] theorem setRam_keys (m : Memory) : (s.setRam m).keys = s.keys := rfl
@[simp] theorem setRam_halted (m : Memory) : (s.setRam m).halted = s.halted := rfl
@[simp] theorem setRam_fault (m : Memory) : (s.setRam m).fault = s.fault := rfl
@[simp] theorem setRam_events (m : Memory) : (s.setRam m).events = s.events := rfl
@[simp] theorem setRam_draws (m : Memory) : (s.setRam m).draws = s.draws := rfl
@[simp] theorem setRam_loadOpen (m : Memory) : (s.setRam m).loadOpen = s.loadOpen := rfl
@[simp] theorem setRam_reg (m : Memory) (r : Reg) : (s.setRam m).reg r = s.reg r := rfl

/-! ## setVideo -/

@[simp] theorem setVideo_v (g : Video) : (s.setVideo g).v = s.v := rfl
@[simp] theorem setVideo_pc (g : Video) : (s.setVideo g).pc = s.pc := rfl
@[simp] theorem setVideo_i (g : Video) : (s.setVideo g).i = s.i := rfl
@[simp] theorem setVideo_dt (g : Video) : (s.setVideo g).dt = s.dt := rfl
@[simp] theorem setVideo_st (g : Video) : (s.setVideo g).st = s.st := rfl
@[simp] theorem setVideo_sp (g : Video) : (s.setVideo g).sp = s.sp := rfl
@[simp] theorem setVideo_stack (g : Video) : (s.setVideo g).stack = s.stack := rfl
@[simp] theorem setVideo_ir (g : Video) : (s.setVideo g).ir = s.ir := rfl
@[simp] theorem setVideo_ram (g : Video) : (s.setVideo g).ram = s.ram := rfl
@[simp] theorem setVideo_video (g : Video) : (s.setVideo g).video = g := rfl
@[simp] theorem setVideo_keys (g : Video) : (s.setVideo g).keys = s.keys := rfl
@[simp] theorem setVideo_halted (g : Video) : (s.setVideo g).halted = s.halted := rfl
@[simp] theorem setVideo_fault (g : Video) : (s.setVideo g).fault = s.fault := rfl
@[simp] theorem setVideo_events (g : Video) : (s.setVideo g).events = s.events := rfl
@[simp] theorem setVideo_draws (g : Video) : (s.setVideo g).draws = s.draws := rfl
@[simp] theorem setVideo_loadOpen (g : Video) : (s.setVideo g).loadOpen = s.loadOpen := rfl
@[simp] theorem setVideo_reg (g : Video) (r : Reg) : (s.setVideo g).reg r = s.reg r := rfl

/-! ## setKeys -/

@[simp] theorem setKeys_v (k : BitVec 16) : (s.setKeys k).v = s.v := rfl
@[simp] theorem setKeys_pc (k : BitVec 16) : (s.setKeys k).pc = s.pc := rfl
@[simp] theorem setKeys_i (k : BitVec 16) : (s.setKeys k).i = s.i := rfl
@[simp] theorem setKeys_dt (k : BitVec 16) : (s.setKeys k).dt = s.dt := rfl
@[simp] theorem setKeys_st (k : BitVec 16) : (s.setKeys k).st = s.st := rfl
@[simp] theorem setKeys_sp (k : BitVec 16) : (s.setKeys k).sp = s.sp := rfl
@[simp] theorem setKeys_stack (k : BitVec 16) : (s.setKeys k).stack = s.stack := rfl
@[simp] theorem setKeys_ir (k : BitVec 16) : (s.setKeys k).ir = s.ir := rfl
@[simp] theorem setKeys_ram (k : BitVec 16) : (s.setKeys k).ram = s.ram := rfl
@[simp] theorem setKeys_video (k : BitVec 16) : (s.setKeys k).video = s.video := rfl
@[simp] theorem setKeys_keys (k : BitVec 16) : (s.setKeys k).keys = k := rfl
@[simp] theorem setKeys_halted (k : BitVec 16) : (s.setKeys k).halted = s.halted := rfl
@[simp] theorem setKeys_fault (k : BitVec 16) : (s.setKeys k).fault = s.fault := rfl
@[simp] theorem setKeys_events (k : BitVec 16) : (s.setKeys k).events = s.events := rfl
@[simp] theorem setKeys_draws (k : BitVec 16) : (s.setKeys k).draws = s.draws := rfl
@[simp] theorem setKeys_loadOpen (k : BitVec 16) : (s.setKeys k).loadOpen = s.loadOpen := rfl
@[simp] theorem setKeys_reg (k : BitVec 16) (r : Reg) : (s.setKeys k).reg r = s.reg r := rfl

/-! ## startCycle -/

@[simp] theorem startCycle_v : s.startCycle.v = s.v := rfl
@[simp] theorem startCycle_pc : s.startCycle.pc = s.pc := rfl
@[simp] theorem startCycle_i : s.startCycle.i = s.i := rfl
@[simp] theorem startCycle_dt : s.startCycle.dt = s.dt := rfl
@[simp] theorem startCycle_st : s.startCycle.st = s.st := rfl
@[simp] theorem startCycle_sp : s.startCycle.sp = s.sp := rfl
@[simp] theorem startCycle_stack : s.startCycle.stack = s.stack := rfl
@[simp] theorem startCycle_ir : s.startCycle.ir = s.ir := rfl
@[simp] theorem startCycle_ram : s.startCycle.ram = s.ram := rfl
@[simp] theorem startCycle_video : s.startCycle.video = s.video := rfl
@[simp] theorem startCycle_keys : s.startCycle.keys = s.keys := rfl
@[simp] theorem startCycle_halted : s.startCycle.halted = s.halted := rfl
@[simp] theorem startCycle_fault : s.startCycle.fault = s.fault := rfl
@[simp] theorem startCycle_events : s.startCycle.events = s.events := rfl
@[simp] theorem startCycle_draws : s.startCycle.draws = s.draws := rfl
@[simp] theorem startCycle_loadOpen : s.startCycle.loadOpen = false := rfl
@[simp] theorem startCycle_reg (r : Reg) : s.startCycle.reg r = s.reg r := rfl

/-! ## fetched -/

@[simp] theorem fetched_v (w : Word) : (s.fetched w).v = s.v := rfl
@[simp] theorem fetched_pc (w : Word) : (s.fetched w).pc = s.pc + 2 := rfl
@[simp] theorem fetched_i (w : Word) : (s.fetched w).i = s.i := rfl
@[simp] theorem fetched_dt (w : Word) : (s.fetched w).dt = s.dt := rfl
@[simp] theorem fetched_st (w : Word) : (s.fetched w).st = s.st := rfl
@[simp] theorem fetched_sp (w : Word) : (s.fetched w).sp = s.sp := rfl
@[simp] theorem fetched_stack (w : Word) : (s.fetched w).stack = s.stack := rfl
@[simp] theorem fetched_ir (w : Word) : (s.fetched w).ir = w := rfl
@[simp] theorem fetched_ram (w : Word) : (s.fetched w).ram = s.ram := rfl
@[simp] theorem fetched_video (w : Word) : (s.fetched w).video = s.video := rfl
@[simp] theorem fetched_keys (w : Word) : (s.fetched w).keys = s.keys := rfl
@[simp] theorem fetched_halted (w : Word) : (s.fetched w).halted = s.halted := rfl
@[simp] theorem fetched_fault (w : Word) : (s.fetched w).fault = s.fault := rfl
@[simp] theorem fetched_events (w : Word) : (s.fetched w).events = s.events := rfl
@[simp] theorem fetched_draws (w : Word) : (s.fetched w).draws = s.draws := rfl
@[simp] theorem fetched_loadOpen (w : Word) : (s.fetched w).loadOpen = s.loadOpen := rfl
@[simp] theorem fetched_reg (w : Word) (r : Reg) : (s.fetched w).reg r = s.reg r := rfl

/-! ## tick -/

@[simp] theorem tick_v : s.tick.v = s.v := rfl
@[simp] theorem tick_pc : s.tick.pc = s.pc := rfl
@[simp] theorem tick_i : s.tick.i = s.i := rfl
@[simp] theorem tick_dt : s.tick.dt = countDown s.dt := rfl
@[simp] theorem tick_st : s.tick.st = countDown s.st := rfl
@[simp] theorem tick_sp : s.tick.sp = s.sp := rfl
@[simp] theorem tick_stack : s.tick.stack = s.stack := rfl
@[simp] theorem tick_ir : s.tick.ir = s.ir := rfl
@[simp] theorem tick_ram : s.tick.ram = s.ram := rfl
@[simp] theorem tick_video : s.tick.video = s.video := rfl
@[simp] theorem tick_keys : s.tick.keys = s.keys := rfl
@[simp] theorem tick_halted : s.tick.halted = s.halted := rfl
@[simp] theorem tick_fault : s.tick.fault = s.fault := rfl
@[simp] theorem tick_events : s.tick.events = s.events := rfl
@[simp] theorem tick_draws : s.tick.draws = s.draws := rfl
@[simp] theorem tick_loadOpen : s.tick.loadOpen = s.loadOpen := rfl
@[simp] theorem tick_reg (r : Reg) : s.tick.reg r = s.reg r := rfl

/-! ## drawByte -/

@[simp] theorem drawByte_v : s.drawByte.2.v = s.v := rfl
@[simp] theorem drawByte_pc : s.drawByte.2.pc = s.pc := rfl
@[simp] theorem drawByte_i : s.drawByte.2.i = s.i := rfl
@[simp] theorem drawByte_dt : s.drawByte.2.dt = s.dt := rfl
@[simp] theorem drawByte_st : s.drawByte.2.st = s.st := rfl
@[simp] theorem drawByte_sp : s.drawByte.2.sp = s.sp := rfl
@[simp] theorem drawByte_stack : s.drawByte.2.stack = s.stack := rfl
@[simp] theorem drawByte_ir : s.drawByte.2.ir = s.ir := rfl
@[simp] theorem drawByte_ram : s.drawByte.2.ram = s.ram := rfl
@[simp] theorem drawByte_video : s.drawByte.2.video = s.video := rfl
@[simp] theorem drawByte_keys : s.drawByte.2.keys = s.keys := rfl
@[simp] theorem drawByte_halted : s.drawByte.2.halted = s.halted := rfl
@[simp] theorem drawByte_fault : s.drawByte.2.fault = s.fault := rfl
@[simp] theorem drawByte_events : s.drawByte.2.events = s.events := rfl
@[simp] theorem drawByte_draws : s.drawByte.2.draws = s.draws + 1 := rfl
@[simp] theorem drawByte_loadOpen : s.drawByte.2.loadOpen = s.loadOpen := rfl
@[simp] theorem drawByte_reg (r : Reg) : s.drawByte.2.reg r = s.reg r := rfl
@[simp] theorem drawByte_fst : s.drawByte.1 = Config.randByte s.draws := rfl

end Sys2Proof.Machine
end

