-- ==== Sys2Proof/Laws/Ops.lean ====
section
/-! SUPPORT. One lemma per shared operation over registers, the call stack, the framebuffer and the checks: all it can do. -/

namespace Sys2Proof.Machine

variable (s : State)

/-! ## Registers -/

/-- A read after a write of a register. -/
theorem reg_setReg (x y : Reg) (b : Byte) : (s.setReg x b).reg y = if y = x then b else s.reg y := by
  simp [State.setReg, State.reg, Vector.getElem_set, BitVec.toNat_inj, eq_comm]

@[simp] theorem reg_setReg_same (x : Reg) (b : Byte) : (s.setReg x b).reg x = b := by simp [reg_setReg]

theorem reg_setReg_other {x y : Reg} (b : Byte) (h : y ≠ x) : (s.setReg x b).reg y = s.reg y := by simp [reg_setReg, h]

/-- A skip writes pc and nothing else. -/
theorem skipIf_eq (c : Bool) : s.skipIf c = s.setPc (if c then s.pc + 2 else s.pc) := by
  cases c <;> rfl

/-- What the two writes of ADDR, SUB and SUBN leave in a register: the flag wins in vF. -/
theorem resultThenFlag_reg (x y : Reg) (b : Byte) (f : Bool) :
    (s.resultThenFlag x b f).reg y = if y = 0xF then flagByte f else if y = x then b else s.reg y := by
  simp only [State.resultThenFlag, reg_setReg]

/-- What the two writes of a shift leave in a register at the default: the shifted value wins in vF. -/
theorem shiftReg_reg (x : Reg) (bit : Byte → Bool) (sh : Byte → Byte) :
    ∃ t, s.shiftReg shiftVfOrder x bit sh = .ok t ∧ t = (s.setReg 0xF (flagByte (bit (s.reg x)))).setReg x (sh (s.reg x)) :=
  ⟨_, rfl, rfl⟩

/-- The registers below vx, in order. -/
theorem getElem?_regsBelow (x : Reg) (k : Nat) (h : k < x.toNat) : (s.regsBelow x)[k]? = some (s.reg (BitVec.ofNat 4 k)) := by
  simp [State.regsBelow, h]

@[simp] theorem length_regsBelow (x : Reg) : (s.regsBelow x).length = x.toNat := by simp [State.regsBelow]

/-- What READ's loop leaves in a register: its byte for the registers from k on that have one. -/
theorem setRegsFrom_reg (k : Nat) (bs : List Byte) (y : Reg) (h : k + bs.length ≤ 16) :
    (s.setRegsFrom k bs).reg y = if k ≤ y.toNat then bs.getD (y.toNat - k) (s.reg y) else s.reg y := by
  induction bs generalizing s k with
  | nil => simp [State.setRegsFrom]
  | cons b bs ih =>
    simp only [List.length_cons] at h
    simp only [State.setRegsFrom]
    rw [ih _ _ (by omega), reg_setReg]
    have hk : (BitVec.ofNat 4 k).toNat = k := by simp; omega
    have hy : y = BitVec.ofNat 4 k ↔ y.toNat = k := by rw [← BitVec.toNat_inj, hk]
    simp only [hy]
    by_cases h1 : y.toNat = k
    · simp [h1]
    · by_cases h2 : k ≤ y.toNat
      · have e : y.toNat - k = (y.toNat - (k + 1)) + 1 := by omega
        simp [h1, h2, show k + 1 ≤ y.toNat by omega, e]
      · simp [h1, h2, show ¬ k + 1 ≤ y.toNat by omega]

/-- READ's loop writes registers and nothing else. -/
theorem setRegsFrom_eq (k : Nat) (bs : List Byte) : s.setRegsFrom k bs = { s with v := (s.setRegsFrom k bs).v } := by
  induction bs generalizing s k with
  | nil => rfl
  | cons b bs ih => simp only [State.setRegsFrom]; rw [ih]; rfl

/-! ## Checks -/

/-- An instruction with one check: the writes after a check that holds, or the fault and no write. -/
theorem attempt_next {α : Type} (c : Attempt α) (k : α → State) {t : State} (h : s.attempt c k = .next t) :
    (∃ a, c = .ok a ∧ t = k a) ∨ (∃ r, c = .raise r ∧ t = { s with halted := true, fault := some r }) := by
  cases c with
  | ok a => exact .inl ⟨a, rfl, (Host.Outcome.next.inj h).symm⟩
  | raise r => exact .inr ⟨r, rfl, (Host.Outcome.next.inj h).symm⟩
  | fault f => cases h
  | refuse q => cases h

/-- All that a key test can do at the default. -/
theorem keyPressed_cases (keys : BitVec 16) (k : Byte) :
    (k.toNat ≤ 15 ∧ keyPressed keyIndexOor keys k = .ok (keys.getLsbD k.toNat)) ∨
    (15 < k.toNat ∧ keyPressed keyIndexOor keys k = .raise (.keyIndexFault k)) := by
  by_cases h : k.toNat > 15
  · exact .inr ⟨h, by simp [keyPressed, h, keyIndexOor]⟩
  · exact .inl ⟨by omega, by simp [keyPressed, h]⟩

/-- The lowest pressed key is pressed, and no lower one is; there is none exactly when no key is pressed. -/
theorem lowestKey_some {keys : BitVec 16} {k : Nat} (h : lowestKey keys = some k) :
    k < 16 ∧ keys.getLsbD k = true ∧ ∀ j < k, keys.getLsbD j = false := by
  unfold lowestKey at h
  rw [List.find?_range_eq_some] at h
  obtain ⟨h1, h2, h3⟩ := h
  exact ⟨by simpa using h2, h1, fun j hj => by simpa using h3 j hj⟩

theorem lowestKey_none {keys : BitVec 16} (h : lowestKey keys = none) : keys = 0 := by
  unfold lowestKey at h
  rw [List.find?_eq_none] at h
  refine BitVec.eq_of_getLsbD_eq fun j hj => ?_
  simpa using h j (by simpa using hj)

/-! ## The call stack -/

/-- All that a push can do: the next free slot takes pc, or StackOverflow. -/
theorem push_cases :
    (∃ h : s.sp.toNat < 16, s.push = .ok { s with stack := s.stack.set s.sp.toNat s.pc h, sp := s.sp + 1 }) ∨
    (16 ≤ s.sp.toNat ∧ s.push = .raise (.stackOverflow s.pc0)) := by
  by_cases h : s.sp.toNat < 16
  · exact .inl ⟨h, by simp [State.push, h]⟩
  · exact .inr ⟨by omega, by simp [State.push, h]⟩

/-- All that a pop can do, the stack count at most 16: pc takes the last slot, or StackUnderflow. -/
theorem pop_cases (hs : s.sp.toNat ≤ 16) :
    (s.sp = 0 ∧ s.pop = .raise (.stackUnderflow s.pc0)) ∨
    (∃ a, 0 < s.sp.toNat ∧ s.stack[s.sp.toNat - 1]? = some a ∧ s.pop = .ok { s with sp := s.sp - 1, pc := a }) := by
  by_cases h : s.sp = 0
  · exact .inl ⟨h, by simp [State.pop, h]⟩
  · have h0 : 0 < s.sp.toNat := by
      rcases Nat.eq_zero_or_pos s.sp.toNat with e | e
      · exact absurd (BitVec.eq_of_toNat_eq (by simpa using e)) h
      · exact e
    have hlt : s.sp.toNat - 1 < 16 := by omega
    refine .inr ⟨s.stack[s.sp.toNat - 1], h0, by simp [hlt], ?_⟩
    unfold State.pop
    rw [if_neg h]
    simp [hlt]

/-! ## The framebuffer -/

/-- A flip changes its own cell and no other. -/
theorem cell_flip (g : Video) {k : Nat} (hk : k < 2048) (j : Nat) :
    (g.flip k).cell j = if j = k then !g.cell k else g.cell j := by
  have h1 : k / 64 < 32 := by omega
  by_cases hj : j / 64 < 32
  · simp only [Video.flip, Video.cell, h1, hj, dif_pos, Vector.getElem_set]
    by_cases e : k / 64 = j / 64
    · simp only [e, if_true, BitVec.getLsbD_xor, BitVec.getLsbD_twoPow]
      have hm : k % 64 < 64 := Nat.mod_lt _ (by omega)
      by_cases f : j = k
      · subst f; simp [hm]
      · have : k % 64 ≠ j % 64 := by omega
        simp [f, this]
    · have f : ¬ j = k := fun f => e (by rw [f])
      simp [e, f]
  · have f : ¬ j = k := fun f => hj (f ▸ h1)
    simp [Video.cell, hj, f]

@[simp] theorem cell_clear (k : Nat) : Video.clear.cell k = false := by
  unfold Video.cell Video.clear
  split <;> simp

/-- Two framebuffers with the same 2048 cells are the same framebuffer. -/
theorem video_ext {g h : Video} (e : ∀ k < 2048, g.cell k = h.cell k) : g = h := by
  apply Vector.ext
  intro r hr
  apply BitVec.eq_of_getLsbD_eq
  intro c hc
  have := e (64 * r + c) (by omega)
  have hd : (64 * r + c) / 64 = r := by omega
  have hm : (64 * r + c) % 64 = c := by omega
  simpa [Video.cell, hd, hm, hr] using this

/-- Compositing a list of distinct cells: each listed cell is inverted, the others keep their value, and the collision
is set exactly when some listed cell was lit. -/
theorem foldl_touchCell (ks : List Nat) (hd : ks.Nodup) (hk : ∀ k ∈ ks, k < 2048) (c : Bool) (g : Video) :
    (∀ j, ((ks.foldl touchCell (c, g)).2.cell j = (if j ∈ ks then !g.cell j else g.cell j))) ∧
    (ks.foldl touchCell (c, g)).1 = (c || ks.any fun k => g.cell k) := by
  induction ks generalizing c g with
  | nil => simp
  | cons k ks ih =>
    obtain ⟨hn, hd⟩ := List.nodup_cons.1 hd
    have hk2 : k < 2048 := hk k (List.mem_cons_self ..)
    obtain ⟨h1, h2⟩ := ih hd (fun j hj => hk j (List.mem_cons_of_mem _ hj)) (c || g.cell k) (g.flip k)
    simp only [List.foldl_cons, touchCell]
    refine ⟨fun j => ?_, ?_⟩
    · rw [h1, cell_flip g hk2]
      by_cases e : j = k
      · subst e; simp [hn]
      · simp [e]
    · rw [h2, List.any_cons, Bool.or_assoc]
      congr 2
      rw [Bool.eq_iff_iff]
      simp only [List.any_eq_true]
      refine exists_congr fun j => and_congr_right fun hj => ?_
      have e : j ≠ k := fun e => hn (e ▸ hj)
      rw [cell_flip g hk2, if_neg e]

end Sys2Proof.Machine
end

