-- ==== Sys2Proof/Laws/Sprite.lean ====
section
/-! SUPPORT. Which cells a sprite touches (43_display.md R141 (b), (f)): each once, inside the framebuffer. -/

namespace Sys2Proof.Machine

/-- The cells of one sprite row. -/
theorem mem_rowCells {px cy k : Nat} {b : Byte} :
    k ∈ rowCells px cy b ↔ ∃ c < 8, b.getLsbD (7 - c) = true ∧ k = 64 * cy + (px + c) % 64 := by
  simp only [rowCells, List.mem_filterMap, List.mem_range, Option.ite_none_right_eq_some, Option.some.injEq]
  exact exists_congr fun c => and_congr_right fun _ => and_congr_right fun _ => eq_comm

/-- The cells of a sprite. -/
theorem mem_spriteCells {px py r k : Nat} {bs : List Byte} :
    k ∈ spriteCells px py r bs ↔
      ∃ j b, bs[j]? = some b ∧ ∃ c < 8, b.getLsbD (7 - c) = true ∧ k = 64 * ((py + r + j) % 32) + (px + c) % 64 := by
  induction bs generalizing r with
  | nil => simp [spriteCells]
  | cons b bs ih =>
    simp only [spriteCells, List.mem_append, mem_rowCells, ih]
    constructor
    · rintro (⟨c, hc, hb, rfl⟩ | ⟨j, b', hj, c, hc, hb, rfl⟩)
      · exact ⟨0, b, rfl, c, hc, hb, rfl⟩
      · exact ⟨j + 1, b', by simpa using hj, c, hc, hb, by congr 3; omega⟩
    · rintro ⟨j, b', hj, c, hc, hb, rfl⟩
      cases j with
      | zero =>
        simp only [List.getElem?_cons_zero, Option.some.injEq] at hj
        subst hj
        exact .inl ⟨c, hc, hb, rfl⟩
      | succ j => exact .inr ⟨j, b', by simpa using hj, c, hc, hb, by congr 3; omega⟩

/-- Every touched cell is a cell of the framebuffer. -/
theorem spriteCells_lt {px py r k : Nat} {bs : List Byte} (h : k ∈ spriteCells px py r bs) : k < 2048 := by
  obtain ⟨j, b, _, c, _, _, rfl⟩ := mem_spriteCells.1 h
  omega

theorem rowCells_nodup (px cy : Nat) (b : Byte) : (rowCells px cy b).Nodup := by
  have inj : ∀ c < 8, ∀ c' < 8, (px + c) % 64 = (px + c') % 64 → c = c' := by intro c _ c' _ h; omega
  rw [rowCells, List.nodup_iff_pairwise_ne, List.pairwise_filterMap]
  refine (List.nodup_range (n := 8)).imp_of_mem ?_
  intro c c' hc hc' hne k hk k' hk' e
  simp only [Option.ite_none_right_eq_some, Option.some.injEq] at hk hk'
  exact hne (inj c (List.mem_range.1 hc) c' (List.mem_range.1 hc') (by omega))

/-- Two rows of one sprite are distinct, so no cell is touched twice. -/
theorem spriteCells_nodup (px py r : Nat) (bs : List Byte) (h : bs.length ≤ 32) : (spriteCells px py r bs).Nodup := by
  induction bs generalizing r with
  | nil => exact List.nodup_nil
  | cons b bs ih =>
    simp only [List.length_cons] at h
    rw [spriteCells, List.nodup_append]
    refine ⟨rowCells_nodup .., ih _ (by omega), ?_⟩
    intro k hk k' hk' e
    obtain ⟨c, _, _, hk⟩ := mem_rowCells.1 hk
    obtain ⟨j, b', hj, c', _, _, hk'⟩ := mem_spriteCells.1 hk'
    have hjl := (List.getElem?_eq_some_iff.1 hj).1
    omega

/-- All that compositing a sprite of at most 32 rows does: each touched cell is inverted, the others keep their value, and the
collision is set exactly when a touched cell was lit. -/
theorem composite_spec (px py : Nat) (bs : List Byte) (g : Video) (h : bs.length ≤ 32) :
    (∀ j, (composite px py bs g).2.cell j = if j ∈ spriteCells px py 0 bs then !g.cell j else g.cell j) ∧
    (composite px py bs g).1 = (spriteCells px py 0 bs).any fun k => g.cell k := by
  obtain ⟨h1, h2⟩ := foldl_touchCell _ (spriteCells_nodup px py 0 bs h) (fun k hk => spriteCells_lt hk) false g
  exact ⟨h1, by simpa [composite] using h2⟩

end Sys2Proof.Machine
end

