-- ==== Sys2Proof/Laws/Step.lean ====
section
/-! SUPPORT. All that a cycle and a step can do, said once; later proofs cite these instead of unfolding the step. -/

namespace Sys2Proof.Machine

variable (s : State)

/-! ## The fetch and the cycle (00_scope.md R10, 20_memory.md R48) -/

theorem fetchWord_none (h : s.pc.toNat > 4094) : s.fetchWord? = none := by simp [State.fetchWord?, h]

theorem fetchWord_some (h : s.pc.toNat ≤ 4094) :
    s.fetchWord? = some (wordOfBytes (s.ram.read s.pc.toNat) (s.ram.read (s.pc.toNat + 1))) := by
  simp [State.fetchWord?, show ¬ s.pc.toNat > 4094 by omega]

/-- Where a fetch gives a word, pc is at most 4094. -/
theorem fetchWord_range {w : Word} (h : s.fetchWord? = some w) : s.pc.toNat ≤ 4094 := by
  unfold State.fetchWord? at h
  split at h
  · cases h
  · omega

/-- All that a cycle can do: the fetch faults, the decoded instruction runs, or the word is unknown. -/
theorem cycle_cases :
    (s.pc.toNat > 4094 ∧ cycle s = s.startCycle.raise (.insufficientBytes s.pc)) ∨
    (∃ w i, s.fetchWord? = some w ∧ decodeWord w = .ok i ∧ cycle s = exec i (s.startCycle.fetched w)) ∨
    (∃ w e, s.fetchWord? = some w ∧ decodeWord w = .error e ∧
      cycle s = (s.startCycle.fetched w).raise (.unknownInstruction w ((s.startCycle.fetched w).pc0))) := by
  have hf : s.startCycle.fetchWord? = s.fetchWord? := rfl
  by_cases h : s.pc.toNat > 4094
  · refine .inl ⟨h, ?_⟩
    simp [cycle, hf, fetchWord_none s h]
  · have hw := fetchWord_some s (by omega)
    cases hd : decodeWord (wordOfBytes (s.ram.read s.pc.toNat) (s.ram.read (s.pc.toNat + 1))) with
    | ok i => exact .inr (.inl ⟨_, i, hw, hd, by simp [cycle, hf, hw, executeWord, hd]⟩)
    | error e => exact .inr (.inr ⟨_, e, hw, hd, by simp [cycle, hf, hw, executeWord, hd]⟩)

/-! ## The step (60_exceptions.md R161, R181) -/

/-- A machine that is not halted and whose host lists no act performs a cycle. -/
theorem step_cycle (he : s.events = []) (hh : s.halted = false) : step s = cycle s := by
  simp [step, State.advance, he, hh]

/-- A halted machine whose host does not reset it has no step. -/
theorem step_halted (hh : s.halted = true) (hr : ∀ rest, s.events ≠ .reset :: rest) : step s = .fault (.halted s.fault) := by
  unfold step State.advance
  split <;> simp_all

theorem step_reset {rest : List HostEvent} (he : s.events = .reset :: rest) :
    step s = .next { s.resetKeepingHost with events := rest } := by
  simp [step, State.advance, he]

theorem step_tick {rest : List HostEvent} (he : s.events = .tick :: rest) (hh : s.halted = false) :
    step s = .next { s.tick with events := rest } := by
  simp [step, State.advance, he, hh]

theorem step_setKeys {k : BitVec 16} {rest : List HostEvent} (he : s.events = .setKeys k :: rest) (hh : s.halted = false) :
    step s = .next { s.setKeys k with events := rest } := by
  simp [step, State.advance, he, hh]

theorem step_load {bs : List Byte} {rest : List HostEvent} (he : s.events = .load bs :: rest) (hh : s.halted = false) :
    step s = if s.loadOpen then State.load { s with events := rest } bs else .refused .loadOutOfTurn := by
  simp [step, State.advance, he, hh]

theorem step_load_open {bs : List Byte} {rest : List HostEvent} (he : s.events = .load bs :: rest) (hh : s.halted = false)
    (hl : s.loadOpen = true) : step s = State.load { s with events := rest } bs := by
  rw [step_load s he hh, if_pos hl]

theorem step_run_zero {rest : List HostEvent} (he : s.events = .run 0 :: rest) (hh : s.halted = false) :
    step s = .next { s with events := rest } := by
  simp [step, State.advance, he, hh]

theorem step_run_succ {n : Nat} {rest : List HostEvent} (he : s.events = .run (n + 1) :: rest) (hh : s.halted = false) :
    step s = s.runOne n rest := by
  simp [step, State.advance, he, hh]

/-- Where a step has a next state, it is one of these: a reset, a cycle, a tick, new keys, a load, a run of no cycles, or one
cycle of a run. -/
theorem step_next {t : State} (h : step s = .next t) :
    (∃ rest, s.events = .reset :: rest ∧ t = { s.resetKeepingHost with events := rest }) ∨
    (s.halted = false ∧
      ((s.events = [] ∧ cycle s = .next t) ∨
       (∃ rest, s.events = .tick :: rest ∧ t = { s.tick with events := rest }) ∨
       (∃ k rest, s.events = .setKeys k :: rest ∧ t = { s.setKeys k with events := rest }) ∨
       (∃ bs rest, s.events = .load bs :: rest ∧ s.loadOpen = true ∧ State.load { s with events := rest } bs = .next t) ∨
       (∃ rest, s.events = .run 0 :: rest ∧ t = { s with events := rest }) ∨
       (∃ n rest, s.events = .run (n + 1) :: rest ∧ s.runOne n rest = .next t))) := by
  by_cases hh : s.halted = true
  · by_cases hr : ∃ rest, s.events = .reset :: rest
    · obtain ⟨rest, he⟩ := hr
      exact .inl ⟨rest, he, (Host.Outcome.next.inj ((step_reset s he).symm.trans h)).symm⟩
    · rw [step_halted s hh fun rest he => hr ⟨rest, he⟩] at h
      cases h
  · have hh : s.halted = false := by simpa using hh
    match he : s.events with
    | .reset :: rest => exact .inl ⟨rest, rfl, (Host.Outcome.next.inj ((step_reset s he).symm.trans h)).symm⟩
    | [] => exact .inr ⟨hh, .inl ⟨rfl, (step_cycle s he hh).symm.trans h⟩⟩
    | .tick :: rest =>
      exact .inr ⟨hh, .inr (.inl ⟨rest, rfl, (Host.Outcome.next.inj ((step_tick s he hh).symm.trans h)).symm⟩)⟩
    | .setKeys k :: rest =>
      exact .inr ⟨hh, .inr (.inr (.inl ⟨k, rest, rfl, (Host.Outcome.next.inj ((step_setKeys s he hh).symm.trans h)).symm⟩))⟩
    | .load bs :: rest =>
      rw [step_load s he hh] at h
      split at h
      · rename_i hl
        exact .inr ⟨hh, .inr (.inr (.inr (.inl ⟨bs, rest, rfl, hl, h⟩)))⟩
      · cases h
    | .run 0 :: rest =>
      exact .inr ⟨hh, .inr (.inr (.inr (.inr (.inl ⟨rest, rfl, (Host.Outcome.next.inj ((step_run_zero s he hh).symm.trans h)).symm⟩))))⟩
    | .run (n + 1) :: rest =>
      exact .inr ⟨hh, .inr (.inr (.inr (.inr (.inr ⟨n, rest, rfl, (step_run_succ s he hh).symm.trans h⟩))))⟩

/-- One cycle of a run: the cycle, and then what is left of the run unless the cycle halted the machine. -/
theorem runOne_next {n : Nat} {rest : List HostEvent} {t : State} (h : s.runOne n rest = .next t) :
    ∃ u, cycle { s with events := if n = 0 then rest else .run n :: rest } = .next u ∧
      t = if u.halted then { u with events := rest } else u := by
  unfold State.runOne at h
  simp only at h
  split at h
  · rename_i u hu
    exact ⟨u, hu, (Host.Outcome.next.inj h).symm⟩
  · cases h
  · cases h

/-- One cycle of a run, from the cycle. -/
theorem runOne_of_cycle {n : Nat} {rest : List HostEvent} {u : State}
    (h : cycle { s with events := if n = 0 then rest else .run n :: rest } = .next u) :
    s.runOne n rest = .next (if u.halted then { u with events := rest } else u) := by
  unfold State.runOne
  simp only [h]

/-- Where the next step is a cycle, it is that cycle on some list of acts, and what it leaves but for that list. -/
theorem cyclesNext_step {rest : List HostEvent} {t : State} (hc : s.cyclesNext rest) (h : step s = .next t) :
    ∃ more u, cycle { s with events := more } = .next u ∧ (t = u ∨ t = { u with events := rest }) := by
  obtain ⟨hh, ⟨he, -⟩ | ⟨n, he⟩⟩ := hc
  · rw [step_cycle s he hh] at h
    exact ⟨[], t, by rw [← he]; exact h, .inl rfl⟩
  · rw [step_run_succ s he hh] at h
    obtain ⟨u, hu, ht⟩ := runOne_next s h
    refine ⟨_, u, hu, ?_⟩
    split at ht
    · exact .inr ht
    · exact .inl ht

/-! ## Several steps -/

/-- The first step of several. -/
theorem run_next {t : State} (n : Nat) (h : step s = .next t) :
    Host.Core.run Sys2Proof.core (n + 1) s = Host.Core.run Sys2Proof.core n t := by
  have h' : Sys2Proof.core.step s = .next t := h
  simp only [Host.Core.run, h']

/-- Steps, and then more steps. -/
theorem run_add {t : State} (m n : Nat) (h : Host.Core.run Sys2Proof.core m s = .next t) :
    Host.Core.run Sys2Proof.core (m + n) s = Host.Core.run Sys2Proof.core n t := by
  induction m generalizing s with
  | zero => cases h; rw [Nat.zero_add]
  | succ m ih =>
    rw [Nat.succ_add]
    cases hs : step s with
    | next u => rw [run_next s _ hs] at h ⊢; exact ih u h
    | fault f =>
      have hs' : Sys2Proof.core.step s = .fault f := hs
      simp only [Host.Core.run, hs'] at h; cases h
    | refused q =>
      have hs' : Sys2Proof.core.step s = .refused q := hs
      simp only [Host.Core.run, hs'] at h; cases h

/-- A state that steps to itself stays for ever. -/
theorem run_stays (n : Nat) (h : step s = .next s) : Host.Core.run Sys2Proof.core n s = .next s := by
  induction n with
  | zero => rfl
  | succ n ih => rw [run_next s n h, ih]

/-! ## Loading a program (60_exceptions.md R166, R182) -/

/-- All that a Load can do: the bytes from 0x200 on, or LoadSizeViolation and nothing copied. -/
theorem load_cases (bs : List Byte) :
    (bs.length ≤ 3584 ∧ s.load bs = .next { s with ram := s.ram.writeFrom .fault 0x200 bs, loadOpen := false }) ∨
    (3584 < bs.length ∧ s.load bs = s.raise (.loadSizeViolation bs.length)) := by
  by_cases h : bs.length > 3584
  · exact .inr ⟨h, by simp [State.load, h]⟩
  · exact .inl ⟨by omega, by simp [State.load, h]⟩

/-- The instruction placed by `withFetchWord` is the one the next step fetches. -/
theorem fetchWord_withFetchWord (n w : Nat) (hw : s.ram.wf = true) (hp : s.pc.toNat ≤ 4094) :
    (s.withFetchWord n w).fetchWord? = some (BitVec.ofNat 16 w) := by
  have hp' : ¬ s.pc.toNat > 4094 := by omega
  have h1 := write_wf s.ram (highByte (BitVec.ofNat 16 w)) hw (a := s.pc.toNat) (by omega)
  simp only [State.withFetchWord, State.readyToRun, State.placeWord, hp', if_false, State.fetchWord?]
  rw [read_write_same _ _ h1, read_write_other _ _ h1 (by omega), read_write_same _ _ hw]
  congr 1
  simp only [wordOfBytes, highByte, lowByte]
  refine BitVec.eq_of_getLsbD_eq fun j hj => ?_
  interval_cases j <;> simp

end Sys2Proof.Machine
end

