-- ==== Sys2Proof/Laws/Frame.lean ====
section
/-! SUPPORT. The frame of every shared operation, and how frames compose. -/

namespace Sys2Proof.Machine

variable {p q r : List Part} {s t u : State}

/-! ## Composing frames -/

theorem Frame.refl (s : State) : Frame [] s s := by constructor <;> intros <;> rfl

theorem Frame.trans (h : Frame p s t) (h' : Frame q t u) (hp : p ⊆ r) (hq : q ⊆ r) : Frame r s u where
  reg x n := (h'.reg x fun m => n (hq m)).trans (h.reg x fun m => n (hp m))
  pc n := (h'.pc fun m => n (hq m)).trans (h.pc fun m => n (hp m))
  i n := (h'.i fun m => n (hq m)).trans (h.i fun m => n (hp m))
  dt n := (h'.dt fun m => n (hq m)).trans (h.dt fun m => n (hp m))
  st n := (h'.st fun m => n (hq m)).trans (h.st fun m => n (hp m))
  sp n := (h'.sp fun m => n (hq m)).trans (h.sp fun m => n (hp m))
  slot k n := (h'.slot k fun m => n (hq m)).trans (h.slot k fun m => n (hp m))
  ir n := (h'.ir fun m => n (hq m)).trans (h.ir fun m => n (hp m))
  byte a n := (h'.byte a fun m => n (hq m)).trans (h.byte a fun m => n (hp m))
  cell k n := (h'.cell k fun m => n (hq m)).trans (h.cell k fun m => n (hp m))
  keys n := (h'.keys fun m => n (hq m)).trans (h.keys fun m => n (hp m))
  halted n := (h'.halted fun m => n (hq m)).trans (h.halted fun m => n (hp m))
  fault n := (h'.fault fun m => n (hq m)).trans (h.fault fun m => n (hp m))
  events n := (h'.events fun m => n (hq m)).trans (h.events fun m => n (hp m))
  draws n := (h'.draws fun m => n (hq m)).trans (h.draws fun m => n (hp m))
  loadOpen n := (h'.loadOpen fun m => n (hq m)).trans (h.loadOpen fun m => n (hp m))

/-- A frame that allows more changes holds too. -/
theorem Frame.mono (h : Frame p s t) (hp : p ⊆ r) : Frame r s t := Frame.trans h (Frame.refl t) hp (List.nil_subset r)

/-! ## One frame per operation -/

theorem frame_setReg (s : State) (x : Reg) (b : Byte) : Frame [.reg x] s (s.setReg x b) := by
  constructor <;> try (intros; rfl)
  exact fun y hy => reg_setReg_other s b (by simpa using hy)

theorem frame_setPc (s : State) (a : Word) : Frame [.pc] s (s.setPc a) := by
  constructor <;> first | (intros; rfl) | simp

theorem frame_setI (s : State) (a : Word) : Frame [.i] s (s.setI a) := by
  constructor <;> first | (intros; rfl) | simp

theorem frame_setDt (s : State) (b : Byte) : Frame [.dt] s (s.setDt b) := by
  constructor <;> first | (intros; rfl) | simp

theorem frame_setSt (s : State) (b : Byte) : Frame [.st] s (s.setSt b) := by
  constructor <;> first | (intros; rfl) | simp

theorem frame_skipIf (s : State) (c : Bool) : Frame [.pc] s (s.skipIf c) := by
  rw [skipIf_eq]; exact frame_setPc ..

theorem frame_drawByte (s : State) : Frame [.draws] s s.drawByte.2 := by
  constructor <;> first | (intros; rfl) | simp

theorem frame_raised (s : State) (f : FaultRecord) : Frame [.halted, .fault] s { s with halted := true, fault := some f } := by
  constructor <;> first | (intros; rfl) | simp

theorem frame_resultThenFlag (s : State) (x : Reg) (b : Byte) (f : Bool) :
    Frame [.reg x, .reg 0xF] s (s.resultThenFlag x b f) :=
  Frame.trans (frame_setReg s x b) (frame_setReg _ 0xF _) (by simp) (by simp)

/-- A cell that does not exist reads as 0. -/
theorem cell_beyond (g : Video) {k : Nat} (h : ¬ k < 2048) : g.cell k = false := by
  unfold Video.cell
  rw [dif_neg (by omega)]

theorem frame_setVideo (s : State) (g : Video) : Frame allCells s (s.setVideo g) := by
  constructor <;> try (intros; rfl)
  intro k hk
  have h : ¬ k < 2048 := fun h => hk (by simp [allCells, h])
  rw [cell_beyond _ h, cell_beyond _ h]

/-- A write of a range of ram that exists. -/
theorem frame_writeRange (s : State) (d : DataOor) (a : Nat) (bs : List Byte) (h : s.ram.wf = true)
    (hr : bs.length = 0 ∨ a + bs.length ≤ 4096) : Frame (bytesAt a bs.length) s (s.setRam (s.ram.writeFrom d a bs)) := by
  constructor <;> try (intros; rfl)
  intro a' ha
  rcases hr with h0 | hr
  · rw [List.length_eq_zero_iff] at h0
    subst h0; rfl
  · have hn : ¬ (a ≤ a' ∧ a' < a + bs.length) := by
      rintro ⟨h1, h2⟩
      refine ha ?_
      simp only [bytesAt, List.mem_map, List.mem_range]
      exact ⟨a' - a, by omega, by congr 1; omega⟩
    simp only [setRam_ram]
    rw [read_writeRange s.ram d a bs h hr]
    split
    · rw [List.getD_eq_getElem?_getD, List.getElem?_eq_none (by omega)]; rfl
    · rfl

/-- READ's loop from v0 on. -/
theorem frame_setRegsFrom (s : State) (bs : List Byte) (h : bs.length ≤ 16) :
    Frame (regsUpTo bs.length) s (s.setRegsFrom 0 bs) := by
  have e := setRegsFrom_eq s 0 bs
  refine Frame.mk ?_ ?_ ?_ ?_ ?_ ?_ ?_ ?_ ?_ ?_ ?_ ?_ ?_ ?_ ?_ ?_
  on_goal 1 => intro y hy
  on_goal 1 => clear e
  all_goals try (intros; rw [e])
  have hn : ¬ y.toNat < bs.length := by
    intro hlt
    refine hy ?_
    simp only [regsUpTo, List.mem_map, List.mem_range]
    exact ⟨y.toNat, hlt, by simp⟩
  rw [setRegsFrom_reg s 0 bs y (by omega), if_pos (by omega), List.getD_eq_getElem?_getD,
    List.getElem?_eq_none (by omega)]
  rfl

end Sys2Proof.Machine
end

