-- ==== Sys2Proof/Laws/PerInstr.lean ====
section
/-! SUPPORT. The family RowMatch of LAWS.json: every instruction's word lies in its own row of the opcode table (30_encoding.md
R66: "A word w selects the row whose `(w & mask) = match`"), one lemma per constructor. -/

namespace Sys2Proof.Laws.RowMatch

/-- The word of the instruction selects the instruction's row. -/
def Statement (i : Instr) : Prop := encode i &&& i.matchMask.2 = i.matchMask.1

/-- Two words with the same 16 bits are the same word. -/
theorem bits_eq {a b : Word} (h : ∀ j < 16, a.getLsbD j = b.getLsbD j) : a = b := BitVec.eq_of_getLsbD_eq h

theorem clr : Statement .clr := rfl

theorem rts : Statement .rts := rfl

theorem jump (nnn : Addr) : Statement (.jump nnn) := bits_eq fun j hj => by
  interval_cases j <;> simp [encode, Instr.matchMask, atNNN]

theorem call (nnn : Addr) : Statement (.call nnn) := bits_eq fun j hj => by
  interval_cases j <;> simp [encode, Instr.matchMask, atNNN]

theorem ske (x : Reg) (nn : Byte) : Statement (.ske x nn) := bits_eq fun j hj => by
  interval_cases j <;> simp [encode, Instr.matchMask, atX, atNN]

theorem skne (x : Reg) (nn : Byte) : Statement (.skne x nn) := bits_eq fun j hj => by
  interval_cases j <;> simp [encode, Instr.matchMask, atX, atNN]

theorem skre (x y : Reg) : Statement (.skre x y) := bits_eq fun j hj => by
  interval_cases j <;> simp [encode, Instr.matchMask, atX, atY]

theorem skrne (x y : Reg) : Statement (.skrne x y) := bits_eq fun j hj => by
  interval_cases j <;> simp [encode, Instr.matchMask, atX, atY]

theorem load (x : Reg) (nn : Byte) : Statement (.load x nn) := bits_eq fun j hj => by
  interval_cases j <;> simp [encode, Instr.matchMask, atX, atNN]

theorem add (x : Reg) (nn : Byte) : Statement (.add x nn) := bits_eq fun j hj => by
  interval_cases j <;> simp [encode, Instr.matchMask, atX, atNN]

theorem move (x y : Reg) : Statement (.move x y) := bits_eq fun j hj => by
  interval_cases j <;> simp [encode, Instr.matchMask, atX, atY]

theorem or (x y : Reg) : Statement (.or x y) := bits_eq fun j hj => by
  interval_cases j <;> simp [encode, Instr.matchMask, atX, atY]

theorem and (x y : Reg) : Statement (.and x y) := bits_eq fun j hj => by
  interval_cases j <;> simp [encode, Instr.matchMask, atX, atY]

theorem xor (x y : Reg) : Statement (.xor x y) := bits_eq fun j hj => by
  interval_cases j <;> simp [encode, Instr.matchMask, atX, atY]

theorem addr (x y : Reg) : Statement (.addr x y) := bits_eq fun j hj => by
  interval_cases j <;> simp [encode, Instr.matchMask, atX, atY]

theorem sub (x y : Reg) : Statement (.sub x y) := bits_eq fun j hj => by
  interval_cases j <;> simp [encode, Instr.matchMask, atX, atY]

theorem subn (x y : Reg) : Statement (.subn x y) := bits_eq fun j hj => by
  interval_cases j <;> simp [encode, Instr.matchMask, atX, atY]

theorem shr (x y : Reg) : Statement (.shr x y) := bits_eq fun j hj => by
  interval_cases j <;> simp [encode, Instr.matchMask, atX, atY]

theorem shl (x y : Reg) : Statement (.shl x y) := bits_eq fun j hj => by
  interval_cases j <;> simp [encode, Instr.matchMask, atX, atY]

theorem loadi (nnn : Addr) : Statement (.loadi nnn) := bits_eq fun j hj => by
  interval_cases j <;> simp [encode, Instr.matchMask, atNNN]

theorem jumpi (nnn : Addr) : Statement (.jumpi nnn) := bits_eq fun j hj => by
  interval_cases j <;> simp [encode, Instr.matchMask, atNNN]

theorem rand (x : Reg) (nn : Byte) : Statement (.rand x nn) := bits_eq fun j hj => by
  interval_cases j <;> simp [encode, Instr.matchMask, atX, atNN]

theorem draw (x y : Reg) (n : Nibble) : Statement (.draw x y n) := bits_eq fun j hj => by
  interval_cases j <;> simp [encode, Instr.matchMask, atX, atY, atN]

theorem skp (x : Reg) : Statement (.skp x) := bits_eq fun j hj => by
  interval_cases j <;> simp [encode, Instr.matchMask, atX]

theorem sknp (x : Reg) : Statement (.sknp x) := bits_eq fun j hj => by
  interval_cases j <;> simp [encode, Instr.matchMask, atX]

theorem moved (x : Reg) : Statement (.moved x) := bits_eq fun j hj => by
  interval_cases j <;> simp [encode, Instr.matchMask, atX]

theorem keyd (x : Reg) : Statement (.keyd x) := bits_eq fun j hj => by
  interval_cases j <;> simp [encode, Instr.matchMask, atX]

theorem loadd (x : Reg) : Statement (.loadd x) := bits_eq fun j hj => by
  interval_cases j <;> simp [encode, Instr.matchMask, atX]

theorem loads (x : Reg) : Statement (.loads x) := bits_eq fun j hj => by
  interval_cases j <;> simp [encode, Instr.matchMask, atX]

theorem addi (x : Reg) : Statement (.addi x) := bits_eq fun j hj => by
  interval_cases j <;> simp [encode, Instr.matchMask, atX]

theorem ldspr (x : Reg) : Statement (.ldspr x) := bits_eq fun j hj => by
  interval_cases j <;> simp [encode, Instr.matchMask, atX]

theorem bcd (x : Reg) : Statement (.bcd x) := bits_eq fun j hj => by
  interval_cases j <;> simp [encode, Instr.matchMask, atX]

theorem stor (x : Reg) : Statement (.stor x) := bits_eq fun j hj => by
  interval_cases j <;> simp [encode, Instr.matchMask, atX]

theorem read (x : Reg) : Statement (.read x) := bits_eq fun j hj => by
  interval_cases j <;> simp [encode, Instr.matchMask, atX]

end Sys2Proof.Laws.RowMatch
end

