-- ==== Sys2Proof/WellFormed.lean ====
section
/-! DEFINITION. Which instructions an assembler can write (30_encoding.md R71). The widths of all operands are in
their types, so the one thing left to check is the ignored nibble of SHR and SHL. -/

namespace Sys2Proof

/-- "Assembling `SHR vx` or `SHL vx` puts 0 in the y bits" (R71): an instruction with another y in them has no
spelling. IT STILL DECODES AND RUNS, as the same shift (R68, log 11): no meaning and no statement asks for
well-formedness, which only says what an assembler writes (log 23). -/
def Instr.wf : Instr → Bool
  | .shr _ y => y == 0
  | .shl _ y => y == 0
  | .clr => true
  | .rts => true
  | .jump _ => true
  | .call _ => true
  | .ske _ _ => true
  | .skne _ _ => true
  | .skre _ _ => true
  | .skrne _ _ => true
  | .load _ _ => true
  | .add _ _ => true
  | .move _ _ => true
  | .or _ _ => true
  | .and _ _ => true
  | .xor _ _ => true
  | .addr _ _ => true
  | .sub _ _ => true
  | .subn _ _ => true
  | .loadi _ => true
  | .jumpi _ => true
  | .rand _ _ => true
  | .draw _ _ _ => true
  | .skp _ => true
  | .sknp _ => true
  | .moved _ => true
  | .keyd _ => true
  | .loadd _ => true
  | .loads _ => true
  | .addi _ => true
  | .ldspr _ => true
  | .bcd _ => true
  | .stor _ => true
  | .read _ => true

end Sys2Proof
end

