-- ==== Sys2Proof/Tests/Slice0.lean ====
section
/-! SUPPORT. The model's own tests: the WellFormed smoke test, one decode per constructor, at most two one-cycle tests per
instruction with the results of spec/95_test_vectors.md (each named by its vector), and a witness for the hypotheses of every
statement in Certificates/Slice0/Obligations.lean. -/

namespace Sys2Proof.Tests

open Sys2Proof.Machine

/-! ## Helpers -/

/-- The reset machine with one register set. -/
def reg1 (x : Reg) (a : Byte) : State := State.reset.setReg x a

/-- The reset machine with two registers set. -/
def reg2 (x : Reg) (a : Byte) (y : Reg) (b : Byte) : State := (reg1 x a).setReg y b

/-- Bytes placed in ram from an address on. -/
def bytesIn (s : State) (a : Nat) (bs : List Byte) : State := s.setRam (s.ram.writeFrom .fault a bs)

/-- The state after one cycle on the word w satisfies p: the machine went on to it. -/
def afterCycle (w : Nat) (s : State) (p : State → Bool) : Bool :=
  match step (s.withFetchWord 16 w) with
  | .next t => p t
  | .fault _ => false
  | .refused _ => false

/-- The state after one step, whatever it is, satisfies p. -/
def afterStep (s : State) (p : State → Bool) : Bool :=
  match step s with
  | .next t => p t
  | .fault _ => false
  | .refused _ => false

/-- The cells below 2048 that are lit, in order. -/
def lit (g : Video) : List Nat := (List.range 2048).filter g.cell

/-- A framebuffer with the given cells lit. -/
def lighting (ks : List Nat) : Video := ks.foldl Video.flip Video.clear

/-- The machine halted with this fault. -/
def haltedWith (r : FaultRecord) (t : State) : Bool := t.halted && t.fault == some r

/-! ## WellFormed (30_encoding.md R71) -/

/-- An assembler puts 0 in the y bits of SHR: another y is ill-formed. -/
theorem test_wf_refuses_shr_with_y : Instr.wf (.shr 0x1 0x1) = false := by decide
/-- The same of SHL. -/
theorem test_wf_refuses_shl_with_y : Instr.wf (.shl 0x1 0xF) = false := by decide
theorem test_wf_accepts_shifts : Instr.wf (.shr 0xF 0x0) = true ∧ Instr.wf (.shl 0xF 0x0) = true := by decide
theorem test_wf_accepts_the_rest : Instr.wf (.draw 0xF 0xF 0xF) = true ∧ Instr.wf (.jump 0xFFF) = true := by decide

/-! ## Decoding: one word per constructor, its bits group, then the row's fields (30_encoding.md R61, R62, R66) -/

/-- 00E0, 95 DE8. -/
theorem test_decode_clr : decodeWord 0b0000000011100000#16 = .ok (.clr) ∧ encode (.clr) = 0b0000000011100000#16 := by decide

/-- 00EE, DE9. -/
theorem test_decode_rts : decodeWord 0b0000000011101110#16 = .ok (.rts) ∧ encode (.rts) = 0b0000000011101110#16 := by decide

/-- 1 nnn = 234, DE1. -/
theorem test_decode_jump : decodeWord 0b0001001000110100#16 = .ok (.jump 0x234) ∧ encode (.jump 0x234) = 0b0001001000110100#16 := by decide

/-- 2 nnn = 300, CF4. -/
theorem test_decode_call : decodeWord 0b0010001100000000#16 = .ok (.call 0x300) ∧ encode (.call 0x300) = 0b0010001100000000#16 := by decide

/-- 3 x = 4 nn = 12, DE2. -/
theorem test_decode_ske : decodeWord 0b0011010000010010#16 = .ok (.ske 0x4 0x12) ∧ encode (.ske 0x4 0x12) = 0b0011010000010010#16 := by decide

/-- 4 x = 3 nn = 2A, CF11. -/
theorem test_decode_skne : decodeWord 0b0100001100101010#16 = .ok (.skne 0x3 0x2A) ∧ encode (.skne 0x3 0x2A) = 0b0100001100101010#16 := by decide

/-- 5 x = 1 y = 2 0, CF13. -/
theorem test_decode_skre : decodeWord 0b0101000100100000#16 = .ok (.skre 0x1 0x2) ∧ encode (.skre 0x1 0x2) = 0b0101000100100000#16 := by decide

/-- 9 x = 1 y = 2 0, CF16. -/
theorem test_decode_skrne : decodeWord 0b1001000100100000#16 = .ok (.skrne 0x1 0x2) ∧ encode (.skrne 0x1 0x2) = 0b1001000100100000#16 := by decide

/-- 6 x = A nn = 55, DE3. -/
theorem test_decode_load : decodeWord 0b0110101001010101#16 = .ok (.load 0xA 0x55) ∧ encode (.load 0xA 0x55) = 0b0110101001010101#16 := by decide

/-- 7 x = 0 nn = 03, S8. -/
theorem test_decode_add : decodeWord 0b0111000000000011#16 = .ok (.add 0x0 0x03) ∧ encode (.add 0x0 0x03) = 0b0111000000000011#16 := by decide

/-- 8 x = 1 y = 2 0, AL7. -/
theorem test_decode_move : decodeWord 0b1000000100100000#16 = .ok (.move 0x1 0x2) ∧ encode (.move 0x1 0x2) = 0b1000000100100000#16 := by decide

/-- 8 x = 1 y = 2 1, AL9. -/
theorem test_decode_or : decodeWord 0b1000000100100001#16 = .ok (.or 0x1 0x2) ∧ encode (.or 0x1 0x2) = 0b1000000100100001#16 := by decide

/-- 8 x = 1 y = 2 2, AL10. -/
theorem test_decode_and : decodeWord 0b1000000100100010#16 = .ok (.and 0x1 0x2) ∧ encode (.and 0x1 0x2) = 0b1000000100100010#16 := by decide

/-- 8 x = 1 y = 2 3, AL11. -/
theorem test_decode_xor : decodeWord 0b1000000100100011#16 = .ok (.xor 0x1 0x2) ∧ encode (.xor 0x1 0x2) = 0b1000000100100011#16 := by decide

/-- 8 x = A y = B 4, DE5. -/
theorem test_decode_addr : decodeWord 0b1000101010110100#16 = .ok (.addr 0xA 0xB) ∧ encode (.addr 0xA 0xB) = 0b1000101010110100#16 := by decide

/-- 8 x = 1 y = 2 5, AL21. -/
theorem test_decode_sub : decodeWord 0b1000000100100101#16 = .ok (.sub 0x1 0x2) ∧ encode (.sub 0x1 0x2) = 0b1000000100100101#16 := by decide

/-- 8 x = 1 y = 2 7, AL28. -/
theorem test_decode_subn : decodeWord 0b1000000100100111#16 = .ok (.subn 0x1 0x2) ∧ encode (.subn 0x1 0x2) = 0b1000000100100111#16 := by decide

/-- 8 x = A y = B 6, DE6. -/
theorem test_decode_shr : decodeWord 0b1000101010110110#16 = .ok (.shr 0xA 0xB) ∧ encode (.shr 0xA 0xB) = 0b1000101010110110#16 := by decide

/-- 8 x = A y = F E, DE7. -/
theorem test_decode_shl : decodeWord 0b1000101011111110#16 = .ok (.shl 0xA 0xF) ∧ encode (.shl 0xA 0xF) = 0b1000101011111110#16 := by decide

/-- A nnn = 200, S8. -/
theorem test_decode_loadi : decodeWord 0b1010001000000000#16 = .ok (.loadi 0x200) ∧ encode (.loadi 0x200) = 0b1010001000000000#16 := by decide

/-- B nnn = 300, CF19. -/
theorem test_decode_jumpi : decodeWord 0b1011001100000000#16 = .ok (.jumpi 0x300) ∧ encode (.jumpi 0x300) = 0b1011001100000000#16 := by decide

/-- C x = 1 nn = 0F, AL45. -/
theorem test_decode_rand : decodeWord 0b1100000100001111#16 = .ok (.rand 0x1 0x0F) ∧ encode (.rand 0x1 0x0F) = 0b1100000100001111#16 := by decide

/-- D x = 1 y = 2 n = 5, DE4. -/
theorem test_decode_draw : decodeWord 0b1101000100100101#16 = .ok (.draw 0x1 0x2 0x5) ∧ encode (.draw 0x1 0x2 0x5) = 0b1101000100100101#16 := by decide

/-- E x = 3 9E, KT1. -/
theorem test_decode_skp : decodeWord 0b1110001110011110#16 = .ok (.skp 0x3) ∧ encode (.skp 0x3) = 0b1110001110011110#16 := by decide

/-- E x = 0 A1, DE11. -/
theorem test_decode_sknp : decodeWord 0b1110000010100001#16 = .ok (.sknp 0x0) ∧ encode (.sknp 0x0) = 0b1110000010100001#16 := by decide

/-- F x = 1 07, KT16. -/
theorem test_decode_moved : decodeWord 0b1111000100000111#16 = .ok (.moved 0x1) ∧ encode (.moved 0x1) = 0b1111000100000111#16 := by decide

/-- F x = 2 0A, KT10. -/
theorem test_decode_keyd : decodeWord 0b1111001000001010#16 = .ok (.keyd 0x2) ∧ encode (.keyd 0x2) = 0b1111001000001010#16 := by decide

/-- F x = 1 15, KT19. -/
theorem test_decode_loadd : decodeWord 0b1111000100010101#16 = .ok (.loadd 0x1) ∧ encode (.loadd 0x1) = 0b1111000100010101#16 := by decide

/-- F x = 1 18, KT22. -/
theorem test_decode_loads : decodeWord 0b1111000100011000#16 = .ok (.loads 0x1) ∧ encode (.loads 0x1) = 0b1111000100011000#16 := by decide

/-- F x = 1 1E, IM4. -/
theorem test_decode_addi : decodeWord 0b1111000100011110#16 = .ok (.addi 0x1) ∧ encode (.addi 0x1) = 0b1111000100011110#16 := by decide

/-- F x = 3 29, IM9. -/
theorem test_decode_ldspr : decodeWord 0b1111001100101001#16 = .ok (.ldspr 0x3) ∧ encode (.ldspr 0x3) = 0b1111001100101001#16 := by decide

/-- F x = 1 33, IM14. -/
theorem test_decode_bcd : decodeWord 0b1111000100110011#16 = .ok (.bcd 0x1) ∧ encode (.bcd 0x1) = 0b1111000100110011#16 := by decide

/-- F x = 0 55, DE12. -/
theorem test_decode_stor : decodeWord 0b1111000001010101#16 = .ok (.stor 0x0) ∧ encode (.stor 0x0) = 0b1111000001010101#16 := by decide

/-- F x = F 65, DE10. -/
theorem test_decode_read : decodeWord 0b1111111101100101#16 = .ok (.read 0xF) ∧ encode (.read 0xF) = 0b1111111101100101#16 := by decide

/-- Words of no row (95_test_vectors.md, "Unknown words"). -/
theorem test_decode_unknown : [0x0000, 0x01E0, 0x5121, 0x912F, 0x8128, 0xE19F, 0xF130].all
    (fun w => decodeWord w == .error (.unknownInstruction w)) = true := by decide
/-- The first byte is the high one (DE1, DE2). -/
theorem test_decode_byte_order : decode [0x12, 0x34, 0xFF] = .ok (.jump 0x234, [0xFF]) := by decide
/-- One byte is no instruction (20_memory.md R48). -/
theorem test_decode_one_byte : decode [0x12] = .error .insufficientBytes := by decide

/-! ## One cycle per test (95_test_vectors.md Part 2) -/

/-- DR1. -/
theorem test_clr : afterCycle 0x00E0 { reg1 0xF 0x55 with video := lighting [0, 5, 2047] } (fun t => t.video == Video.clear && t.reg 0xF == 0x55) = true := by decide

/-- CF5. -/
theorem test_rts : afterCycle 0x00EE { State.reset with pc := 0x0300, sp := 1, stack := State.reset.stack.set 0 0x0204 } (fun t => t.pc == 0x0204 && t.sp == 0) = true := by decide

/-- CF6. -/
theorem test_rts_underflow : afterCycle 0x00EE State.reset (fun t => haltedWith (.stackUnderflow 0x0200) t && t.pc == 0x0202) = true := by decide

/-- CF1. -/
theorem test_jump : afterCycle 0x1ABC State.reset (fun t => t.pc == 0x0ABC) = true := by decide

/-- CF8. -/
theorem test_call_sixteenth : afterCycle 0x2300 { State.reset with sp := 15 } (fun t => t.pc == 0x0300 && t.sp == 16 && t.stack[15] == 0x0202) = true := by decide

/-- CF7. -/
theorem test_call_overflow : afterCycle 0x2300 { State.reset with sp := 16 } (fun t => haltedWith (.stackOverflow 0x0200) t && t.pc == 0x0202 && t.sp == 16) = true := by decide

/-- CF9. -/
theorem test_ske_skips : afterCycle 0x332A (reg1 0x3 0x2A) (fun t => t.pc == 0x0204) = true := by decide

/-- CF10. -/
theorem test_ske_goes_on : afterCycle 0x332A (reg1 0x3 0x2B) (fun t => t.pc == 0x0202) = true := by decide

/-- CF11. -/
theorem test_skne_goes_on : afterCycle 0x432A (reg1 0x3 0x2A) (fun t => t.pc == 0x0202) = true := by decide

/-- CF12. -/
theorem test_skne_skips : afterCycle 0x432A (reg1 0x3 0x00) (fun t => t.pc == 0x0204) = true := by decide

/-- CF13. -/
theorem test_skre_skips : afterCycle 0x5120 (reg2 0x1 7 0x2 7) (fun t => t.pc == 0x0204) = true := by decide

/-- CF14. -/
theorem test_skre_goes_on : afterCycle 0x5120 (reg2 0x1 7 0x2 8) (fun t => t.pc == 0x0202) = true := by decide

/-- CF16. -/
theorem test_skrne_skips : afterCycle 0x9120 (reg2 0x1 7 0x2 8) (fun t => t.pc == 0x0204) = true := by decide

/-- CF17. -/
theorem test_skrne_goes_on : afterCycle 0x9120 (reg2 0x1 7 0x2 7) (fun t => t.pc == 0x0202) = true := by decide

/-- AL1. -/
theorem test_load : afterCycle 0x6005 State.reset (fun t => t.reg 0 == 0x05 && t.pc == 0x0202) = true := by decide

/-- AL2. -/
theorem test_load_vF : afterCycle 0x6FFF State.reset (fun t => t.reg 0xF == 0xFF) = true := by decide

/-- AL4. -/
theorem test_add_wraps : afterCycle 0x7002 (reg1 0x0 0xFF) (fun t => t.reg 0 == 0x01 && t.reg 0xF == 0x00) = true := by decide

/-- AL6. -/
theorem test_add_vF : afterCycle 0x7FFF (reg1 0xF 0x02) (fun t => t.reg 0xF == 0x01) = true := by decide

/-- AL7. -/
theorem test_move : afterCycle 0x8120 (reg1 0x2 0x7F) (fun t => t.reg 1 == 0x7F && t.reg 2 == 0x7F) = true := by decide

/-- AL9. -/
theorem test_or : afterCycle 0x8121 ((reg2 0x1 0xF0 0x2 0x0F).setReg 0xF 0x55) (fun t => t.reg 1 == 0xFF && t.reg 0xF == 0x55) = true := by decide

/-- AL10. -/
theorem test_and : afterCycle 0x8122 ((reg2 0x1 0xF0 0x2 0x3C).setReg 0xF 0x55) (fun t => t.reg 1 == 0x30 && t.reg 0xF == 0x55) = true := by decide

/-- AL11. -/
theorem test_xor : afterCycle 0x8123 ((reg2 0x1 0xF0 0x2 0x3C).setReg 0xF 0x55) (fun t => t.reg 1 == 0xCC && t.reg 0xF == 0x55) = true := by decide

/-- AL16. -/
theorem test_addr_carry : afterCycle 0x8124 (reg2 0x1 0xFF 0x2 0x01) (fun t => t.reg 1 == 0x00 && t.reg 0xF == 0x01) = true := by decide

/-- AL18. -/
theorem test_addr_vF_source : afterCycle 0x81F4 (reg2 0x1 0x10 0xF 0x07) (fun t => t.reg 1 == 0x17 && t.reg 0xF == 0x00) = true := by decide

/-- AL21. -/
theorem test_sub_borrow : afterCycle 0x8125 (reg2 0x1 0x10 0x2 0x20) (fun t => t.reg 1 == 0xF0 && t.reg 0xF == 0x00) = true := by decide

/-- AL23. -/
theorem test_sub_equal : afterCycle 0x8125 (reg2 0x1 0x33 0x2 0x33) (fun t => t.reg 1 == 0x00 && t.reg 0xF == 0x01) = true := by decide

/-- AL28. -/
theorem test_subn : afterCycle 0x8127 (reg2 0x1 0x10 0x2 0x20) (fun t => t.reg 1 == 0x10 && t.reg 0xF == 0x01) = true := by decide

/-- AL31. -/
theorem test_subn_vF : afterCycle 0x8F17 (reg2 0xF 0x05 0x1 0x03) (fun t => t.reg 0xF == 0x00) = true := by decide

/-- AL36. -/
theorem test_shr_ignores_y : afterCycle 0x81A6 (reg2 0x1 0x04 0xA 0xFF) (fun t => t.reg 1 == 0x02 && t.reg 0xF == 0x00 && t.reg 0xA == 0xFF) = true := by decide

/-- AL37. -/
theorem test_shr_vF : afterCycle 0x8F06 (reg1 0xF 0x05) (fun t => t.reg 0xF == 0x02) = true := by decide

/-- AL39. -/
theorem test_shl : afterCycle 0x810E (reg1 0x1 0x81) (fun t => t.reg 1 == 0x02 && t.reg 0xF == 0x01) = true := by decide

/-- AL44. -/
theorem test_shl_vF : afterCycle 0x8F0E (reg1 0xF 0x41) (fun t => t.reg 0xF == 0x82) = true := by decide

/-- IM2. -/
theorem test_loadi : afterCycle 0xAFFF State.reset (fun t => t.i == 0x0FFF) = true := by decide

/-- CF19. -/
theorem test_jumpi : afterCycle 0xB300 (reg1 0x0 0x04) (fun t => t.pc == 0x0304) = true := by decide

/-- CF20. -/
theorem test_jumpi_no_wrap : afterCycle 0xBFFF (reg1 0x0 0xFF) (fun t => t.pc == 0x10FE) = true := by decide

/-- DR4. -/
theorem test_draw_wraps : afterCycle 0xD121 (bytesIn ((reg1 0x1 60).setI 0x0300) 0x300 [0xFF]) (fun t => t.video == lighting [60, 61, 62, 63, 0, 1, 2, 3] && t.reg 0xF == 0x00) = true := by decide

/-- DR7. -/
theorem test_draw_collides : afterCycle 0xD121 (bytesIn { State.reset with i := 0x0300, video := lighting [0] } 0x300 [0xC0]) (fun t => t.video == lighting [1] && t.reg 0xF == 0x01) = true := by decide

/-- KT1. -/
theorem test_skp : afterCycle 0xE39E { reg1 0x3 0x0A with keys := 0x0400 } (fun t => t.pc == 0x0204) = true := by decide

/-- KT4. -/
theorem test_skp_no_such_key : afterCycle 0xE39E { reg1 0x3 0x10 with keys := 0xFFFF } (fun t => haltedWith (.keyIndexFault 0x10) t && t.pc == 0x0202) = true := by decide

/-- KT6. -/
theorem test_sknp : afterCycle 0xE3A1 (reg1 0x3 0x0A) (fun t => t.pc == 0x0204) = true := by decide

/-- KT7. -/
theorem test_sknp_pressed : afterCycle 0xE3A1 { reg1 0x3 0x0A with keys := 0x0400 } (fun t => t.pc == 0x0202) = true := by decide

/-- KT18. -/
theorem test_moved : afterCycle 0xF107 { State.reset with dt := 0x01, st := 0x09 } (fun t => t.reg 1 == 0x01 && t.dt == 0x01) = true := by decide

/-- KT10. -/
theorem test_keyd_retries : afterCycle 0xF20A (reg1 0x2 0x77) (fun t => t.pc == 0x0200 && t.reg 2 == 0x77 && !t.halted) = true := by decide

/-- KT11. -/
theorem test_keyd_lowest : afterCycle 0xF20A { reg1 0x2 0x77 with keys := 0x0208 } (fun t => t.pc == 0x0202 && t.reg 2 == 0x03) = true := by decide

/-- KT21. -/
theorem test_loadd : afterCycle 0xF115 { reg1 0x1 0xFF with st := 0x04 } (fun t => t.dt == 0xFF && t.st == 0x04) = true := by decide

/-- KT23. -/
theorem test_loads : afterCycle 0xF118 { reg1 0x1 0x00 with st := 0x07, dt := 0x03 } (fun t => t.st == 0x00 && t.dt == 0x03) = true := by decide

/-- IM5. -/
theorem test_addi_no_mask : afterCycle 0xF11E ((reg1 0x1 0x01).setI 0x0FFF) (fun t => t.i == 0x1000 && t.reg 0xF == 0x00) = true := by decide

/-- IM6. -/
theorem test_addi_wraps : afterCycle 0xF11E ((reg1 0x1 0x02).setI 0xFFFF) (fun t => t.i == 0x0001) = true := by decide

/-- IM10. -/
theorem test_ldspr : afterCycle 0xF329 (reg1 0x3 0x0F) (fun t => t.i == 0x004B) = true := by decide

/-- IM12. -/
theorem test_ldspr_no_mask : afterCycle 0xF329 (reg1 0x3 0xFF) (fun t => t.i == 0x04FB) = true := by decide

/-- IM19. -/
theorem test_bcd_last_place : afterCycle 0xF133 ((reg1 0x1 0x7B).setI 0x0FFD) (fun t => t.ram.read 0xFFD == 1 && t.ram.read 0xFFE == 2 && t.ram.read 0xFFF == 3) = true := by decide

/-- IM20. -/
theorem test_bcd_beyond : afterCycle 0xF133 ((reg1 0x1 0x7B).setI 0x0FFE) (fun t => haltedWith (.addressFault 0x0FFE 3) t && t.ram.read 0xFFE == 0) = true := by decide

/-- IM21. -/
theorem test_stor : afterCycle 0xF255 (((reg2 0x0 0xAA 0x1 0xBB).setReg 0x2 0xCC).setI 0x0300) (fun t => t.ram.read 0x300 == 0xAA && t.ram.read 0x301 == 0xBB && t.ram.read 0x302 == 0x00) = true := by decide

/-- IM23. -/
theorem test_stor_nothing : afterCycle 0xF055 ((reg1 0x0 0xAA).setI 0x1234) (fun t => !t.halted && t.ram == [(0x200, 0xF0), (0x201, 0x55)]) = true := by decide

/-- IM28. -/
theorem test_read : afterCycle 0xF265 (bytesIn (State.reset.setI 0x0300) 0x300 [2, 5, 4, 9]) (fun t => t.reg 0 == 2 && t.reg 1 == 5 && t.reg 2 == 4 && t.reg 3 == 0) = true := by decide

/-- IM32. -/
theorem test_read_beyond : afterCycle 0xF165 ((reg2 0x0 0x11 0x1 0x22).setI 0x0FFF) (fun t => haltedWith (.addressFault 0x0FFF 2) t && t.reg 0 == 0x11 && t.reg 1 == 0x22) = true := by decide

/-- AL46: whatever byte is drawn, the mask 0x00 gives 0x00, and one byte has been drawn. -/
theorem test_rand_masks : ∃ t, exec (.rand 0x1 0x00) (reg1 0x1 0x55) = .next t ∧ t.reg 0x1 = 0x00 ∧ t.draws = 1 :=
  ⟨_, rfl, by simp, rfl⟩
/-- AL47: the mask 0xFF gives the byte itself. -/
theorem test_rand_whole : ∃ t, exec (.rand 0x1 0xFF) State.reset = .next t ∧ t.reg 0x1 = Config.randByte 0 :=
  ⟨_, rfl, (reg_setReg_same ..).trans BitVec.allOnes_and⟩

/-! ## Fetch, faults and the host (95_test_vectors.md Part 2) -/

/-- The font is where LDSPR points: IM34, and it is 80 bytes long (10_state.md R30). -/
theorem test_font : State.reset.ram.readFrom dataOor 0x000 5 = [0xF0, 0x90, 0x90, 0x90, 0xF0] ∧ fontBytes.length = 80 := by decide
/-- FA1, FA7: at 0x0FFF the fetch faults, whatever the byte there, and pc stays. -/
theorem test_fetch_beyond : afterStep { State.reset with pc := 0x0FFF }
    (fun t => haltedWith (.insufficientBytes 0x0FFF) t && t.pc == 0x0FFF) = true := by decide
/-- FA4: the last word of ram is a legal place for an instruction. -/
theorem test_fetch_last_word : afterStep (bytesIn { State.reset with pc := 0x0FFE } 0xFFE [0x6A, 0x55])
    (fun t => t.reg 0xA == 0x55 && t.pc == 0x1000) = true := by decide
/-- CF21, CF25: an odd pc is fetched from. -/
theorem test_fetch_odd : afterStep (bytesIn { State.reset with pc := 0x0201 } 0x201 [0x6A, 0x55])
    (fun t => t.reg 0xA == 0x55 && t.pc == 0x0203) = true := by decide
/-- HO5: a zero word is unknown. -/
theorem test_unknown_word : afterStep State.reset
    (fun t => haltedWith (.unknownInstruction 0x0000 0x0200) t && t.pc == 0x0202) = true := by decide
/-- FA5: a halted machine has no step. -/
theorem test_halted_stays : step { State.reset with halted := true, fault := some (.unknownInstruction 0 0x0200) } =
    .fault (.halted (some (.unknownInstruction 0 0x0200))) := rfl
/-- HO2: both timers in one tick. -/
theorem test_tick : afterStep { State.reset with dt := 0xFF, st := 0x01, events := [.tick] }
    (fun t => t.dt == 0xFE && t.st == 0x00) = true := by decide
/-- HO1: floored at 0. -/
theorem test_tick_floor : afterStep { State.reset with dt := 0, events := [.tick] } (fun t => t.dt == 0) = true := by decide
/-- HO6. -/
theorem test_setKeys : afterStep { State.reset with events := [.setKeys 0x0208] } (fun t => t.keys == 0x0208) = true := by decide
/-- P1: the image is placed at 0x200 on. -/
theorem test_load_program : afterStep { State.reset with events := [.load [0x60, 0x05, 0x70, 0x03]] }
    (fun t => t.ram.readFrom dataOor 0x200 4 == [0x60, 0x05, 0x70, 0x03] && t.pc == 0x0200) = true := by decide
/-- FA6: a run stops at the fault, its other cycles not performed. -/
theorem test_run_stops : afterStep { State.reset with events := [.run 10, .tick] }
    (fun t => t.halted && t.events == [.tick]) = true := by decide
/-- What the host sees after reset (60_exceptions.md R177). -/
theorem test_outputs : State.reset.outputs.stOut = 0 ∧ State.reset.outputs.haltedOut = false ∧ State.reset.outputs.faultOut = none :=
  ⟨rfl, rfl, rfl⟩

/-! ## The hypotheses of the statements can be met -/

/-- A word with ignored bits set. -/
theorem witness_EncodeOfDecodeIsTheWord : decodeWord 0x8FF6 = .ok (.shr 0xF 0xF) := by decide

/-- A word of the last row, and a word of none. -/
theorem witness_RowsSelectTheInstruction : (0xFF65 &&& (Instr.read 0).matchMask.2 = (Instr.read 0).matchMask.1) ∧ decodeWord 0xFF66 = .error (.unknownInstruction 0xFF66) := by decide

/-- Every operand bit set, in each format. -/
theorem witness_EachRowDecodesToItsInstruction : (0x00E0 &&& 0xFFFF#16 = 0x00E0) ∧ (0x1FFF &&& 0xF000#16 = 0x1000) ∧
    (0x3FFF &&& 0xF000#16 = 0x3000) ∧ (0x5FF0 &&& 0xF00F#16 = 0x5000) ∧ (0x8FFE &&& 0xF00F#16 = 0x800E) ∧ (0xFF65 &&& 0xF0FF#16 = 0xF065) := by decide

/-- A word that decodes, and one that does not. -/
theorem witness_DecodeTakesTwoBytesHighByteFirst : ((0x1234 : Word).toNat = 256 * (0x12 : Byte).toNat + (0x34 : Byte).toNat ∧ decodeWord 0x1234 = .ok (.jump 0x234)) ∧
    ((0x0000 : Word).toNat = 256 * (0x00 : Byte).toNat + (0x00 : Byte).toNat ∧ decodeWord 0x0000 = .error (.unknownInstruction 0x0000)) := by decide

/-- The reset machine with a word at the last place a fetch reaches. -/
def atLastWord (w : Nat) : State := { State.reset with pc := 0x0FFE }.withFetchWord 16 w

/-- With no act of the host first, at the last word of ram. -/
theorem witness_StepRunsTheDecodedInstruction : (atLastWord 0x6A55).halted = false ∧ (atLastWord 0x6A55).pc.toNat ≤ 4094 ∧
    (0x6A55 : Word).toNat = 256 * ((atLastWord 0x6A55).ram.read (atLastWord 0x6A55).pc.toNat).toNat +
      ((atLastWord 0x6A55).ram.read ((atLastWord 0x6A55).pc.toNat + 1)).toNat ∧
    decodeWord 0x6A55 = .ok (.load 0xA 0x55) ∧ (atLastWord 0x6A55).events = [] := by decide

/-- Inside a run, its last cycle and an earlier one. -/
theorem witness_StepRunsTheDecodedInstruction_run : ({ atLastWord 0x6A55 with events := [.run 1] } : State).events = .run (0 + 1) :: [] ∧
    ({ atLastWord 0x6A55 with events := [.run 2, .tick] } : State).events = .run (1 + 1) :: [.tick] ∧
    ∃ t, exec (.load 0xA 0x55) { atLastWord 0x6A55 with ir := 0x6A55, pc := 0x1000, loadOpen := false, events := [.run 1, .tick] } = .next t := ⟨rfl, rfl, _, rfl⟩

/-- The first pc with no word, by itself and in a Run; the last pc with one. -/
theorem witness_FetchReadsTwoBytesOrFaults : ({ State.reset with pc := 4095 } : State).cyclesNext [] ∧
    ({ State.reset with pc := 4095, events := [.run 2, .tick] } : State).cyclesNext [.tick] ∧ (4095 : Word).toNat > 4094 ∧
    (4094 : Word).toNat ≤ 4094 := ⟨⟨rfl, .inl ⟨rfl, rfl⟩⟩, ⟨rfl, .inr ⟨1, rfl⟩⟩, by decide, by decide⟩

/-- Reset ram holds a zero word at 0x200; by itself and in the last cycle of a Run. -/
theorem witness_UnknownInstructionHalts : State.reset.cyclesNext [] ∧
    ({ State.reset with events := [.run 1, .tick] } : State).cyclesNext [.tick] ∧ State.reset.fetchWord? = some 0x0000 ∧
    ∀ i, decodeWord 0x0000 ≠ .ok i := 
  ⟨⟨rfl, .inl ⟨rfl, rfl⟩⟩, ⟨rfl, .inr ⟨0, rfl⟩⟩, by decide, fun i h => by
    rw [show decodeWord 0x0000 = .error (.unknownInstruction 0x0000) by decide] at h; cases h⟩

/-- A halted machine, with and without a Reset to come. -/
theorem witness_HaltedMachineHasNoStepButReset : ({ State.reset with halted := true } : State).halted = true ∧
    (∀ rest, ({ State.reset with halted := true } : State).events ≠ .reset :: rest) ∧
    ({ State.reset with halted := true, events := [.reset] } : State).events = .reset :: [] := 
  ⟨rfl, (fun _ h => by cases h), rfl⟩

/-- Every faulting instruction, at the first value that faults. -/
theorem witness_EveryInstructionCompletesOrFaults : 
    faultOf .rts State.reset = some (.stackUnderflow 0x01FE) ∧
    faultOf (.call 0) { State.reset with sp := 16 } = some (.stackOverflow 0x01FE) ∧
    faultOf (.draw 0 0 1) { State.reset with i := 0x1000 } = some (.addressFault 0x1000 1) ∧
    faultOf (.bcd 0) { State.reset with i := 0x0FFE } = some (.addressFault 0x0FFE 3) ∧
    faultOf (.stor 2) { State.reset with i := 0x0FFF } = some (.addressFault 0x0FFF 2) ∧
    faultOf (.read 0) { State.reset with i := 0x1000 } = some (.addressFault 0x1000 1) ∧
    faultOf (.skp 3) (reg1 3 16) = some (.keyIndexFault 16) ∧ faultOf (.sknp 3) (reg1 3 16) = some (.keyIndexFault 16) := by decide

/-- And at the last value that does not, the stack count at most 16. -/
theorem witness_EveryInstructionCompletesOrFaults_none : 
    faultOf .rts { State.reset with sp := 16 } = none ∧ ({ State.reset with sp := 16 } : State).sp.toNat ≤ 16 ∧
    faultOf (.call 0) { State.reset with sp := 15 } = none ∧ faultOf (.draw 0 0 0) { State.reset with i := 0xFFFF } = none ∧
    faultOf (.bcd 0) { State.reset with i := 0x0FFD } = none ∧ faultOf (.stor 1) { State.reset with i := 0x0FFF } = none ∧
    faultOf (.read 0) { State.reset with i := 0x0FFF } = none ∧ faultOf (.skp 3) (reg1 3 15) = none ∧
    faultOf (.sknp 3) (reg1 3 15) = none ∧ faultOf .clr State.reset = none := by decide

/-- A launch state other than reset. -/
theorem witness_LaunchStatesMeetTheInvariant : ({ reg1 0x0 0x55 with i := 0xFFFF, keys := 0xFFFF } : State).isLaunch := ⟨rfl, rfl, rfl, rfl, rfl, rfl⟩

/-- The reset state steps. It meets the invariant (a statement of its own), and so do these two clauses at their bounds. -/
theorem witness_StepKeepsTheInvariant : 
    (∃ t, step State.reset = .next t) ∧ (0x10FE : Word).toNat ≤ 0x10FE ∧ (16 : BitVec 5).toNat ≤ 16 := ⟨⟨_, rfl⟩, by decide, by decide⟩

/-- A state with sixteen pending return addresses and the greatest pc meets the invariant, and it steps. -/
theorem witness_StepKeepsTheInvariant_full : 
    ∃ s : State, s.Inv ∧ s.sp = 16 ∧ s.pc = 0x10FE ∧ ∃ t, step s = .next t := 
  ⟨{ State.reset with sp := 16, pc := 0x10FE, stack := Vector.replicate 16 0x1000 },
    ⟨rfl, by decide, by decide, fun k a hk ha => by
      have hk : k < 16 := hk
      simp [hk] at ha
      subst ha; decide, rfl⟩, rfl, rfl, _, rfl⟩

/-- Canonical ram, and an instruction that runs. -/
theorem witness_ExecWritesOnlyItsParts : State.reset.ram.wf = true ∧ ∃ t, exec (.bcd 0) State.reset = .next t := ⟨rfl, _, rfl⟩

/-- An instruction that runs, and one that is not LOADS. -/
theorem witness_NoInstructionReadsTheSoundTimer : (∃ t, exec (.moved 1) State.reset = .next t) ∧ ∀ x, Instr.moved 1 ≠ .loads x := ⟨⟨_, rfl⟩, fun _ h => by cases h⟩

/-- An instruction that runs. -/
theorem witness_NoInstructionReadsIrAgain : ∃ t, exec (.ldspr 0) State.reset = .next t := ⟨_, rfl⟩

/-- Two stacks that agree below the count and differ at it. -/
theorem witness_StaleStackSlotsAreNeverRead : 
    ({ State.reset with sp := 1 } : State).sp.toNat ≤ 16 ∧
    (∀ k < 1, (State.reset.stack.set 1 0x0300)[k]? = State.reset.stack[k]?) ∧
    ∃ t, exec .rts { State.reset with sp := 1 } = .next t := ⟨by decide, by decide, _, rfl⟩

/-- The last values outside each corner. -/
theorem witness_OpenParametersDifferOnlyInTheirCorner : 
    ((0xE : Reg) ≠ 0xF) ∧ (15 : Byte).toNat ≤ 15 ∧ ((0xFF00 : Word).toNat + (0xFF : Byte).toNat ≤ 0xFFFF) ∧
    ((0x0FF0 : Word).toNat + 16 ≤ 4096) ∧ (0x1234 : Word).toNat + 0 > 4096 := by decide

/-- An empty stack, one return address, sixteen. -/
theorem witness_RtsPopsTheReturnAddress : 
    State.reset.sp = 0 ∧ (0 < ({ State.reset with sp := 1 } : State).sp.toNat) ∧ (0 < ({ State.reset with sp := 16 } : State).sp.toNat) ∧
    ({ State.reset with sp := 16 } : State).sp.toNat ≤ 16 := by decide

/-- A full stack, and the last free slot. -/
theorem witness_CallPushesTheNextAddress : ({ State.reset with sp := 16 } : State).sp = 16 ∧ ({ State.reset with sp := 15 } : State).sp.toNat < 16 := by decide

/-- The last free slot, and the state after the CALL as the RTS finds it. -/
theorem witness_CallThenRtsResumesAfterTheCall : 
    ({ State.reset with sp := 15 } : State).sp.toNat < 16 ∧
    ∃ t, exec (.call 0x300) { State.reset with sp := 15 } = .next t ∧ (t.fetched 0x00EE).sp = t.sp ∧ (t.fetched 0x00EE).stack = t.stack := ⟨by decide, _, rfl, rfl, rfl⟩

/-- The source's program 12 00 (S9). -/
theorem witness_SelfJumpRunsForEver : (State.reset.withFetchWord 16 0x1200).runs ∧
    (State.reset.withFetchWord 16 0x1200).fetchWord? = some 0x1200 ∧ decodeWord 0x1200 = .ok (.jump 0x200) ∧
    (State.reset.withFetchWord 16 0x1200).pc.toNat = (0x200 : Addr).toNat := ⟨⟨rfl, rfl⟩, by decide, by decide, by decide⟩

/-- The last register that is not vF (ShiftsKeepTheBitThatLeaves asks the same). -/
theorem witness_AddrSubSubnResultAndFlag : (0xE : Reg) ≠ 0xF := by decide

/-- Each instruction runs with x = 0xE; the sprite at the end of ram. -/
theorem witness_FlagPolarity : 
    (0xE : Reg) ≠ 0xF ∧ (∃ t, exec (.addr 0xE 0xF) State.reset = .next t) ∧ (∃ t, exec (.sub 0xE 0xF) State.reset = .next t) ∧
    (∃ t, exec (.subn 0xE 0xF) State.reset = .next t) ∧ (∃ t, exec (.shr 0xE 0xF) State.reset = .next t) ∧
    (∃ t, exec (.shl 0xE 0xF) State.reset = .next t) ∧ (State.reset.setI 0x0FF1).reaches 15 ∧
    (∃ t, exec (.draw 0xF 0xF 15) (State.reset.setI 0x0FF1) = .next t) := 
  ⟨by decide, ⟨_, rfl⟩, ⟨_, rfl⟩, ⟨_, rfl⟩, ⟨_, rfl⟩, ⟨_, rfl⟩, .inr (by decide), ⟨_, rfl⟩⟩

/-- The last place for three digits. -/
theorem witness_BcdStoresThreeDigits : State.reset.ram.wf = true ∧ (State.reset.setI 0x0FFD).reaches 3 := ⟨rfl, .inr (by decide)⟩

/-- No register with i beyond ram; fifteen registers at the last place, of which v14 is the last stored. -/
theorem witness_StorStoresRegistersBelowX : 
    State.reset.ram.wf = true ∧ (State.reset.setI 0xFFFF).reaches (0 : Reg).toNat ∧
    (State.reset.setI 0x0FF1).reaches (15 : Reg).toNat ∧ (14 : Reg).toNat < (15 : Reg).toNat := ⟨rfl, .inl rfl, .inr (by decide), by decide⟩

/-- Sixteen registers at the last place. -/
theorem witness_ReadLoadsRegistersUpToX : (State.reset.setI 0x0FF0).reaches ((15 : Reg).toNat + 1) ∧ (15 : Reg).toNat ≤ (15 : Reg).toNat := ⟨.inr (by decide), by decide⟩

/-- Fifteen registers at the last place; the state after the STOR meets the inner premises itself. -/
theorem witness_StorThenReadRestoresRegisters : 
    State.reset.ram.wf = true ∧ (14 : Reg).toNat ≤ 14 ∧ (State.reset.setI 0x0FF1).reaches ((14 : Reg).toNat + 1) ∧
    ∃ t, exec (.stor (14 + 1)) (State.reset.setI 0x0FF1) = .next t ∧ (t.fetched 0xFE65).i = t.i ∧ (t.fetched 0xFE65).ram = t.ram := 
  ⟨rfl, by decide, .inr (by decide), _, rfl, rfl, rfl⟩

/-- Two registers stored at the last word of ram. -/
theorem witness_StoredBytesAreFetched : State.reset.ram.wf = true ∧ (State.reset.setI 0x0FFE).reaches (2 : Reg).toNat ∧
    (0 : Reg).toNat + 1 < (2 : Reg).toNat ∧ (0x0FFE : Word).toNat = (State.reset.setI 0x0FFE).i.toNat + (0 : Reg).toNat ∧
    ∃ t, exec (.stor 2) (State.reset.setI 0x0FFE) = .next t := ⟨rfl, .inr (by decide), by decide, by decide, _, rfl⟩

/-- Three digits at the last place, fetched at the first and at the second of them. -/
theorem witness_StoredBytesAreFetched_bcd : (State.reset.setI 0x0FFD).reaches 3 ∧
    (∃ t, exec (.bcd 0) (State.reset.setI 0x0FFD) = .next t) ∧ (0x0FFD : Word).toNat = (State.reset.setI 0x0FFD).i.toNat ∧
    (0x0FFE : Word).toNat = (State.reset.setI 0x0FFD).i.toNat + 1 := ⟨.inr (by decide), ⟨_, rfl⟩, rfl, rfl⟩

/-- No row with i beyond ram; fifteen rows at the last place. -/
theorem witness_DrawInvertsExactlyTheSpriteCells : (State.reset.setI 0xFFFF).reaches (0 : Nibble).toNat ∧ (State.reset.setI 0x0FF1).reaches (15 : Nibble).toNat := ⟨.inl rfl, .inr (by decide)⟩

/-- The state after the first DRAW v1,v2,5 of glyph 0 is one at which the second starts. -/
theorem witness_DoubleDrawRestoresTheFramebuffer : 
    State.reset.reaches (5 : Nibble).toNat ∧ ∃ t, exec (.draw 1 2 5) State.reset = .next t ∧ (t.fetched 0xD125).video = t.video ∧
      (t.fetched 0xD125).i = State.reset.i ∧ (t.fetched 0xD125).reg 1 = State.reset.reg 1 ∧
      (t.fetched 0xD125).reg 2 = State.reset.reg 2 ∧ (t.fetched 0xD125).ram = State.reset.ram := 
  ⟨.inr (by decide), _, rfl, rfl, rfl, by decide, by decide, rfl⟩

/-- The last key. -/
theorem witness_KeySkipsTestTheNamedKey : ((reg1 3 15).reg 3).toNat ≤ 15 := by decide

/-- Only the last key pressed; no key pressed. -/
theorem witness_KeydTakesTheLowestKeyOrRetries : 
    (15 : Nat) < 16 ∧ (0x8000 : BitVec 16).getLsbD 15 = true ∧ (∀ j < 15, (0x8000 : BitVec 16).getLsbD j = false) ∧ State.reset.keys = 0 := by decide

/-- A KEYD at 0x200, no key pressed. -/
theorem witness_KeydWaitsInPlace : (State.reset.withFetchWord 16 0xF20A).runs ∧
    (State.reset.withFetchWord 16 0xF20A).fetchWord? = some 0xF20A ∧ decodeWord 0xF20A = .ok (.keyd 2) ∧
    (State.reset.withFetchWord 16 0xF20A).keys = 0 := ⟨⟨rfl, rfl⟩, by decide, by decide, rfl⟩

/-- The same with retries and ticks to come: an empty Run, a tick, a Run of two, and a SetKeys after them. -/
theorem witness_KeydWaitsInPlace_ticks : 
    ({ State.reset.withFetchWord 16 0xF20A with events := [.run 0, .tick, .run 2, .setKeys 1] } : State).halted = false ∧
    ({ State.reset.withFetchWord 16 0xF20A with events := [.run 0, .tick, .run 2, .setKeys 1] } : State).events =
      [.run 0, .tick, .run 2] ++ [.setKeys 1] ∧
    ({ State.reset.withFetchWord 16 0xF20A with events := [.run 0, .tick, .run 2, .setKeys 1] } : State).fetchWord? = some 0xF20A ∧
    (∀ e ∈ ([.run 0, .tick, .run 2] : List HostEvent), e = .tick ∨ ∃ n, e = .run n) := 
  ⟨rfl, rfl, by decide, fun e he => by
    simp only [List.mem_cons, List.not_mem_nil, or_false] at he
    obtain rfl | rfl | rfl := he
    · exact .inr ⟨0, rfl⟩
    · exact .inl rfl
    · exact .inr ⟨2, rfl⟩⟩

/-- Two ticks, and a cycle of the host after them. -/
theorem witness_TicksCountBothTimersDown : State.reset.halted = false ∧
    ({ State.reset with events := [.tick, .tick, .run 1] } : State).events = List.replicate 2 .tick ++ [.run 1] := ⟨rfl, rfl⟩

/-- All keys; an instruction that reads them; a step that is neither SetKeys nor Reset. -/
theorem witness_OnlySetKeysAndResetWriteTheKeys : State.reset.halted = false ∧
    ({ State.reset with events := [.setKeys 0xFFFF] } : State).events = .setKeys 0xFFFF :: [] ∧
    (∃ t, exec (.keyd 0) State.reset = .next t) ∧ (∃ t, step { State.reset with events := [.tick] } = .next t) ∧
    (∀ keys rest, ({ State.reset with events := [.tick] } : State).events ≠ .setKeys keys :: rest) ∧
    (∀ rest, ({ State.reset with events := [.tick] } : State).events ≠ .reset :: rest) := 
  ⟨rfl, rfl, ⟨_, rfl⟩, ⟨_, rfl⟩, (fun _ _ h => by cases h), (fun _ h => by cases h)⟩

/-- The longest program (HO3), and byte 3583 of it. -/
theorem witness_LoadCopiesTheProgram : State.reset.halted = false ∧ State.reset.loadOpen = true ∧ State.reset.ram.wf = true ∧
    (List.replicate 3584 (0xAB : Byte)).length ≤ 3584 ∧ (List.replicate 3584 (0xAB : Byte))[3583]? = some 0xAB := ⟨rfl, rfl, rfl, by rw [List.length_replicate], List.getElem?_replicate_of_lt (by omega)⟩

/-- The longest program, and one byte more (HO3, HO4). -/
theorem witness_LoadIsBoundedBy3584Bytes : State.reset.halted = false ∧ State.reset.loadOpen = true ∧
    State.reset.ram.wf = true ∧ (List.replicate 3585 (0xAB : Byte)).length > 3584 ∧ (List.replicate 3584 (0xAB : Byte)).length = 3584 := 
  ⟨rfl, rfl, rfl, by rw [List.length_replicate]; omega, List.length_replicate⟩

/-- A Load after a cycle; a machine whose next step is a cycle, by itself and in a Run. -/
theorem witness_LoadOutOfTurnIsRefused : ({ State.reset with loadOpen := false, events := [.load []] } : State).loadOpen = false ∧
    State.reset.cyclesNext [] ∧ (∃ t, step State.reset = .next t) ∧ ({ State.reset with events := [.run 1] } : State).cyclesNext [] ∧
    ∃ t, step { State.reset with events := [.run 1] } = .next t := ⟨rfl, ⟨rfl, .inl ⟨rfl, rfl⟩⟩, ⟨_, rfl⟩, ⟨rfl, .inr ⟨0, rfl⟩⟩, _, rfl⟩

/-- A halted machine that the host resets. -/
theorem witness_ResetEventRestoresTheResetState : ({ State.reset with halted := true, events := [.reset, .run 1] } : State).events = .reset :: [.run 1] := rfl


end Sys2Proof.Tests
end

section
/-! SUPPORT. Proofs of the family 40_control_flow.md. First the group of a word read off its row of the opcode table, for every row
whose mask covers the top nibble alone; then what JUMP does. -/

namespace Sys2Proof

/-- R61, R66: under a mask of the top nibble, the row's match says the word's group. -/
theorem fieldGroup_of_groupMask {w row : Word} (h : w &&& 0xF000 = row) : fieldGroup w = fieldGroup row := by
  have hmask : (0xF000 : Word).extractLsb' 12 4 = BitVec.allOnes 4 := by decide
  rw [← h, fieldGroup, fieldGroup, BitVec.extractLsb'_and, hmask, BitVec.and_allOnes]

theorem decodeWord_of_group_1 {w : Word} (h : fieldGroup w = 0x1) : decodeWord w = .ok (.jump (fieldNNN w)) := by
  simp [decodeWord, h]

end Sys2Proof

namespace Sys2Proof.Machine

/-- `zext_16` keeps the value (30_encoding.md R64). -/
@[simp] theorem toNat_zextAddr (nnn : Addr) : (zextAddr nnn).toNat = nnn.toNat :=
  BitVec.toNat_setWidth_of_le (by decide)

theorem exec_jump (nnn : Addr) (s : State) : exec (.jump nnn) s = .next (s.setPc (zextAddr nnn)) := rfl

/-- Settles O26: the row's mask leaves the group alone, and the meaning of JUMP is one write of pc. -/
theorem jumpGoesToItsTarget : Obligations.JumpGoesToItsTarget := by
  constructor
  · intro w hw
    exact decodeWord_of_group_1 (fieldGroup_of_groupMask hw)
  · intro nnn s
    exact ⟨s.setPc (zextAddr nnn), exec_jump nnn s, by simp, frame_setPc s _⟩

end Sys2Proof.Machine
end

section
/-! SUPPORT. Proofs of the family 41_arithmetic_logic.md. First LOAD and ADD; then what a flag byte says and what a difference
modulo 256 is; then what each flag-writing instruction leaves in its registers, and the polarity of every flag from these. -/

namespace Sys2Proof

theorem decodeWord_of_group_6 {w : Word} (h : fieldGroup w = 0x6) : decodeWord w = .ok (.load (fieldX w) (fieldNN w)) := by
  simp [decodeWord, h]

theorem decodeWord_of_group_7 {w : Word} (h : fieldGroup w = 0x7) : decodeWord w = .ok (.add (fieldX w) (fieldNN w)) := by
  simp [decodeWord, h]

end Sys2Proof

namespace Sys2Proof.Machine

/-! ## LOAD and ADD -/

theorem exec_load (x : Reg) (nn : Byte) (s : State) : exec (.load x nn) s = .next (s.setReg x nn) := rfl

theorem exec_add (x : Reg) (nn : Byte) (s : State) : exec (.add x nn) s = .next (s.setReg x (s.reg x + nn)) := rfl

/-- Settles O30: each row's mask leaves the group alone, and each meaning is one write of vx. -/
theorem loadAndAddWriteOneRegister : Obligations.LoadAndAddWriteOneRegister := by
  refine ⟨?load_row, ?add_row, ?load, ?add⟩
  case load_row => exact fun w hw => decodeWord_of_group_6 (fieldGroup_of_groupMask hw)
  case add_row => exact fun w hw => decodeWord_of_group_7 (fieldGroup_of_groupMask hw)
  case load => exact fun x nn s => ⟨_, exec_load x nn s, reg_setReg_same s x nn, frame_setReg s x nn⟩
  case add =>
    intro x nn s
    refine ⟨_, exec_add x nn s, ?_, frame_setReg s x _⟩
    rw [reg_setReg_same, BitVec.toNat_add]

/-! ## Flags (41_arithmetic_logic.md R123) -/

theorem flagByte_eq_one_iff {f : Bool} : flagByte f = 1 ↔ f = true := by
  cases f <;> decide

theorem flagByte_eq_zero_iff {f : Bool} : flagByte f = 0 ↔ f = false := by
  cases f <;> decide

/-- A register that holds a flag says 1 exactly when the flag's condition p holds, and is else 0. -/
theorem polarity_of_eq_flagByte {b : Byte} {f : Bool} {p : Prop} (hb : b = flagByte f) (hf : f = true ↔ p) :
    (b = 1 ↔ p) ∧ (b = 0 ∨ b = 1) := by
  subst hb
  refine ⟨flagByte_eq_one_iff.trans hf, ?_⟩
  cases f
  · exact .inl rfl
  · exact .inr rfl

theorem carryOut_iff {a b : Byte} : carryOut a b = true ↔ a.toNat + b.toNat ≥ 256 :=
  decide_eq_true_iff

theorem noBorrow_iff {a b : Byte} : noBorrow a b = true ↔ a.toNat ≥ b.toNat :=
  decide_eq_true_iff

/-- Without a borrow the stored difference is the true one. -/
theorem toNat_sub_of_noBorrow {a b : Byte} (h : noBorrow a b = true) : ((a - b).toNat : Int) = a.toNat - b.toNat := by
  have hle := noBorrow_iff.1 h
  rw [BitVec.toNat_sub_of_le (BitVec.le_def.2 hle), Nat.cast_sub hle]

/-- With a borrow the stored difference is the true one plus 256. -/
theorem toNat_sub_of_borrow {a b : Byte} (h : noBorrow a b = false) : ((a - b).toNat : Int) = a.toNat - b.toNat + 256 := by
  have hlt : a.toNat < b.toNat := Nat.not_le.1 (decide_eq_false_iff_not.1 h)
  rw [BitVec.toNat_sub_of_lt (BitVec.lt_def.2 hlt), Nat.cast_sub (by omega)]
  omega

/-- The polarity of SUB and SUBN at once: a is the minuend, b the subtrahend. -/
theorem difference_polarity {t : State} {x : Reg} {a b : Byte} (hx : t.reg x = a - b)
    (hF : t.reg 0xF = flagByte (noBorrow a b)) :
    (t.reg 0xF = 1 ↔ a.toNat ≥ b.toNat) ∧ (t.reg 0xF = 0 ∨ t.reg 0xF = 1) ∧
    (t.reg 0xF = 1 → ((t.reg x).toNat : Int) = a.toNat - b.toNat) ∧
    (t.reg 0xF = 0 → ((t.reg x).toNat : Int) = a.toNat - b.toNat + 256) := by
  obtain ⟨hone, hbit⟩ := polarity_of_eq_flagByte hF noBorrow_iff
  refine ⟨hone, hbit, fun h => ?_, fun h => ?_⟩ <;> rw [hx]
  · exact toNat_sub_of_noBorrow (flagByte_eq_one_iff.1 (hF ▸ h))
  · exact toNat_sub_of_borrow (flagByte_eq_zero_iff.1 (hF ▸ h))

/-! ## What ADDR, SUB, SUBN, SHR and SHL leave -/

theorem exec_addr (x y : Reg) (s : State) : exec (.addr x y) s =
    .next (s.resultThenFlag x (s.reg x + s.reg y) (carryOut (s.reg x) (s.reg y))) := rfl

theorem exec_sub (x y : Reg) (s : State) : exec (.sub x y) s =
    .next (s.resultThenFlag x (s.reg x - s.reg y) (noBorrow (s.reg x) (s.reg y))) := rfl

theorem exec_subn (x y : Reg) (s : State) : exec (.subn x y) s =
    .next (s.resultThenFlag x (s.reg y - s.reg x) (noBorrow (s.reg y) (s.reg x))) := rfl

theorem exec_shr (x y : Reg) (s : State) : exec (.shr x y) s =
    .next ((s.setReg 0xF (flagByte (lowBit (s.reg x)))).setReg x (s.reg x >>> 1)) := rfl

theorem exec_shl (x y : Reg) (s : State) : exec (.shl x y) s =
    .next ((s.setReg 0xF (flagByte (highBit (s.reg x)))).setReg x (s.reg x <<< 1)) := rfl

theorem resultThenFlag_vF (s : State) (x : Reg) (b : Byte) (f : Bool) :
    (s.resultThenFlag x b f).reg 0xF = flagByte f := by
  rw [resultThenFlag_reg, if_pos rfl]

theorem resultThenFlag_dest (s : State) {x : Reg} (b : Byte) (f : Bool) (hx : x ≠ 0xF) :
    (s.resultThenFlag x b f).reg x = b := by
  rw [resultThenFlag_reg, if_neg hx, if_pos rfl]

/-- After the two writes of a shift of a register other than vF, vF holds the flag. -/
theorem flagThenResult_vF (s : State) {x : Reg} (b : Byte) (f : Bool) (hx : x ≠ 0xF) :
    ((s.setReg 0xF (flagByte f)).setReg x b).reg 0xF = flagByte f := by
  rw [reg_setReg_other _ b hx.symm, reg_setReg_same]

/-! ## The collision of DRAW (43_display.md R141) -/

/-- A sprite collides exactly when compositing it turns a lit cell dark. -/
theorem composite_collision_iff {px py : Nat} {bs : List Byte} {g : Video} (h : bs.length ≤ 32) :
    (composite px py bs g).1 = true ↔ ∃ k < 2048, g.cell k = true ∧ (composite px py bs g).2.cell k = false := by
  obtain ⟨hcell, hcollision⟩ := composite_spec px py bs g h
  rw [hcollision, List.any_eq_true]
  constructor
  · rintro ⟨k, hk, hlit⟩
    exact ⟨k, spriteCells_lt hk, hlit, by rw [hcell, if_pos hk, hlit, Bool.not_true]⟩
  · rintro ⟨k, -, hlit, hdark⟩
    refine ⟨k, by_contra fun hk => ?_, hlit⟩
    rw [hcell, if_neg hk, hlit] at hdark
    cases hdark

theorem exec_draw (x y : Reg) (n : Nibble) (s : State) : exec (.draw x y n) s =
    s.attempt (memRead dataOor s.ram s.i n.toNat) (s.drawSprite x y) := rfl

/-- DRAW with its sprite bytes in range completes with the sprite composited. -/
theorem exec_draw_of_reaches {s : State} {n : Nibble} (x y : Reg) (h : s.reaches n.toNat) :
    exec (.draw x y n) s = .next (s.drawSprite x y (s.ram.readFrom .fault s.i.toNat n.toNat)) := by
  rw [exec_draw]
  obtain ⟨-, hread⟩ | ⟨hpos, hbeyond, -⟩ := memRead_cases s.ram s.i n.toNat
  · rw [hread, State.attempt]
  · rcases h with h | h <;> omega

theorem drawSprite_vF (s : State) (x y : Reg) (bs : List Byte) : (s.drawSprite x y bs).reg 0xF =
    flagByte (composite (s.spriteColumn x) (s.spriteRow y) bs s.video).1 := by
  rw [State.drawSprite, setVideo_reg, reg_setReg_same]

theorem drawSprite_video (s : State) (x y : Reg) (bs : List Byte) :
    (s.drawSprite x y bs).video = (composite (s.spriteColumn x) (s.spriteRow y) bs s.video).2 := rfl

/-- Settles O35: each instruction leaves one flag byte in vF, and each flag's condition is the one R123 names. -/
theorem flagPolarity : Obligations.FlagPolarity := by
  refine ⟨?addr, ?sub, ?subn, ?shr, ?shl, ?draw⟩
  case addr =>
    intro x y s t _ h
    rw [exec_addr] at h
    cases h
    exact polarity_of_eq_flagByte (resultThenFlag_vF ..) carryOut_iff
  case sub =>
    intro x y s t hx h
    rw [exec_sub] at h
    cases h
    exact difference_polarity (resultThenFlag_dest s _ _ hx) (resultThenFlag_vF ..)
  case subn =>
    intro x y s t hx h
    rw [exec_subn] at h
    cases h
    exact difference_polarity (resultThenFlag_dest s _ _ hx) (resultThenFlag_vF ..)
  case shr =>
    intro x y s t hx h
    rw [exec_shr] at h
    cases h
    exact polarity_of_eq_flagByte (flagThenResult_vF s _ _ hx) Iff.rfl
  case shl =>
    intro x y s t hx h
    rw [exec_shl] at h
    cases h
    exact polarity_of_eq_flagByte (flagThenResult_vF s _ _ hx) Iff.rfl
  case draw =>
    intro x y n s t hn h
    rw [exec_draw_of_reaches x y hn] at h
    cases h
    have hlen : (s.ram.readFrom .fault s.i.toNat n.toNat).length ≤ 32 := by
      rw [length_readFrom]
      omega
    refine polarity_of_eq_flagByte (drawSprite_vF ..) ?_
    rw [drawSprite_video]
    exact composite_collision_iff hlen

end Sys2Proof.Machine
end

section
/-! SUPPORT. Proofs of the family 42_index_memory.md: the row of LOADI, then what LOADI does. -/

namespace Sys2Proof

theorem decodeWord_of_group_A {w : Word} (h : fieldGroup w = 0xA) : decodeWord w = .ok (.loadi (fieldNNN w)) := by
  simp [decodeWord, h]

end Sys2Proof

namespace Sys2Proof.Machine

theorem exec_loadi (nnn : Addr) (s : State) : exec (.loadi nnn) s = .next (s.setI (zextAddr nnn)) := rfl

/-- Settles O36: the row's mask leaves the group alone, and the meaning of LOADI is one write of i. -/
theorem loadiSetsTheIndex : Obligations.LoadiSetsTheIndex := by
  constructor
  · intro w hw
    exact decodeWord_of_group_A (fieldGroup_of_groupMask hw)
  · intro nnn s
    have hi : (s.setI (zextAddr nnn)).i.toNat = nnn.toNat := by rw [setI_i, toNat_zextAddr]
    exact ⟨_, exec_loadi nnn s, hi, frame_setI s _⟩

end Sys2Proof.Machine
end

section
/-! SUPPORT. Proofs of the family 43_display.md. First when two memories give the same sprite bytes; then compositing a sprite over
itself, on a framebuffer and in the two DRAWs of R143. -/

namespace Sys2Proof.Machine

/-- Memories that agree on a range that exists give the same bytes there. -/
theorem readFrom_congr {m m' : Memory} {d : DataOor} {a n : Nat} (hr : n = 0 ∨ a + n ≤ 4096)
    (h : ∀ k < n, m'.read (a + k) = m.read (a + k)) : m'.readFrom d a n = m.readFrom d a n := by
  rcases hr with rfl | hr
  · rfl
  · refine List.ext_getElem? fun k => ?_
    by_cases hk : k < n
    · rw [getElem?_readFrom m' d a n k hr hk, getElem?_readFrom m d a n k hr hk, h k hk]
    · rw [List.getElem?_eq_none (by rw [length_readFrom]; omega), List.getElem?_eq_none (by rw [length_readFrom]; omega)]

/-- Compositing is its own inverse: a cell that the sprite touches is inverted twice, every other cell not at all. -/
theorem composite_composite {px py : Nat} {bs : List Byte} (g : Video) (h : bs.length ≤ 32) :
    (composite px py bs (composite px py bs g).2).2 = g := by
  refine video_ext fun k _ => ?_
  rw [(composite_spec px py bs _ h).1 k, (composite_spec px py bs g h).1 k]
  by_cases hk : k ∈ spriteCells px py 0 bs
  · simp only [if_pos hk, Bool.not_not]
  · simp only [if_neg hk]

/-- R143 for the writes of DRAW: u holds the framebuffer that the first left, and the same coordinates. What the second turns from
1 to 0 is what the first turned from 0 to 1, because the second ends where the first began. -/
theorem drawSprite_again {s u : State} {x y : Reg} {bs : List Byte} (h : bs.length ≤ 32)
    (hvideo : u.video = (s.drawSprite x y bs).video) (hx : u.reg x = s.reg x) (hy : u.reg y = s.reg y) :
    (u.drawSprite x y bs).video = s.video ∧
    ((u.drawSprite x y bs).reg 0xF = 1 ↔ ∃ k < 2048, s.video.cell k = false ∧ u.video.cell k = true) := by
  have hcolumn : u.spriteColumn x = s.spriteColumn x := by rw [State.spriteColumn, State.spriteColumn, hx]
  have hrow : u.spriteRow y = s.spriteRow y := by rw [State.spriteRow, State.spriteRow, hy]
  have hback : (composite (u.spriteColumn x) (u.spriteRow y) bs u.video).2 = s.video := by
    rw [hvideo, drawSprite_video, hcolumn, hrow, composite_composite s.video h]
  refine ⟨hback, ?_⟩
  rw [drawSprite_vF, flagByte_eq_one_iff, composite_collision_iff h, hback]
  exact exists_congr fun _ => and_congr_right fun _ => and_comm

/-- Settles O45: the second DRAW reads the same bytes, so it composites the same sprite over itself. -/
theorem doubleDrawRestoresTheFramebuffer : Obligations.DoubleDrawRestoresTheFramebuffer := by
  intro x y n s hs
  refine ⟨_, exec_draw_of_reaches x y hs, fun t' hvideo hi hx hy hram => ?_⟩
  have hs' : t'.reaches n.toNat := by rwa [State.reaches, hi]
  have hbytes : t'.ram.readFrom .fault t'.i.toNat n.toNat = s.ram.readFrom .fault s.i.toNat n.toNat := by
    rw [hi]
    exact readFrom_congr hs hram
  have hlen : (s.ram.readFrom .fault s.i.toNat n.toNat).length ≤ 32 := by
    rw [length_readFrom]
    omega
  refine ⟨_, exec_draw_of_reaches x y hs', ?_⟩
  rw [hbytes, ← hvideo]
  exact drawSprite_again hlen hvideo hx hy

end Sys2Proof.Machine
end

section
/-! SUPPORT. Proofs about the decoder, the encoder and the opcode table (30_encoding.md). First the fields of a word, as numbers and
of the pieces a word is built from; then what a row of the table says of a word, and what a word that decodes is. -/

namespace Sys2Proof

/-! ## The fields of a word (R61) -/

theorem toNat_fieldGroup (w : Word) : (fieldGroup w).toNat = w.toNat / 4096 := by
  simp [fieldGroup, Nat.shiftRight_eq_div_pow]; omega

theorem toNat_fieldX (w : Word) : (fieldX w).toNat = w.toNat / 256 % 16 := by
  simp [fieldX, Nat.shiftRight_eq_div_pow]

theorem toNat_fieldY (w : Word) : (fieldY w).toNat = w.toNat / 16 % 16 := by
  simp [fieldY, Nat.shiftRight_eq_div_pow]

theorem toNat_fieldN (w : Word) : (fieldN w).toNat = w.toNat % 16 := by
  simp [fieldN]

theorem toNat_fieldNN (w : Word) : (fieldNN w).toNat = w.toNat % 256 := by
  simp [fieldNN]

theorem toNat_fieldNNN (w : Word) : (fieldNNN w).toNat = w.toNat % 4096 := by
  simp [fieldNNN]

/-- The group and the 12 bits below it are the whole word. -/
theorem word_ext_nnn {a b : Word} (hg : fieldGroup a = fieldGroup b) (hnnn : fieldNNN a = fieldNNN b) : a = b := by
  have hg := congrArg BitVec.toNat hg
  have hnnn := congrArg BitVec.toNat hnnn
  rw [toNat_fieldGroup, toNat_fieldGroup] at hg
  rw [toNat_fieldNNN, toNat_fieldNNN] at hnnn
  exact BitVec.eq_of_toNat_eq (by omega)

/-- The 12 bits below the group are x and nn. -/
theorem word_ext_nn {a b : Word} (hg : fieldGroup a = fieldGroup b) (hx : fieldX a = fieldX b) (hnn : fieldNN a = fieldNN b) :
    a = b := by
  refine word_ext_nnn hg (BitVec.eq_of_toNat_eq ?_)
  have hx := congrArg BitVec.toNat hx
  have hnn := congrArg BitVec.toNat hnn
  rw [toNat_fieldX, toNat_fieldX] at hx
  rw [toNat_fieldNN, toNat_fieldNN] at hnn
  rw [toNat_fieldNNN, toNat_fieldNNN]
  omega

/-- The 8 bits of nn are y and n. -/
theorem word_ext_n {a b : Word} (hg : fieldGroup a = fieldGroup b) (hx : fieldX a = fieldX b) (hy : fieldY a = fieldY b)
    (hn : fieldN a = fieldN b) : a = b := by
  refine word_ext_nn hg hx (BitVec.eq_of_toNat_eq ?_)
  have hy := congrArg BitVec.toNat hy
  have hn := congrArg BitVec.toNat hn
  rw [toNat_fieldY, toNat_fieldY] at hy
  rw [toNat_fieldN, toNat_fieldN] at hn
  rw [toNat_fieldNN, toNat_fieldNN]
  omega

/-! ## The fields of the pieces of a word: its fixed bits, and an operand at its place -/

@[simp] theorem fieldGroup_ofNat (k : Nat) : fieldGroup (BitVec.ofNat 16 k) = BitVec.ofNat 4 (k / 4096) :=
  BitVec.eq_of_toNat_eq (by rw [toNat_fieldGroup, BitVec.toNat_ofNat, BitVec.toNat_ofNat]; omega)

@[simp] theorem fieldX_ofNat (k : Nat) : fieldX (BitVec.ofNat 16 k) = BitVec.ofNat 4 (k / 256) :=
  BitVec.eq_of_toNat_eq (by rw [toNat_fieldX, BitVec.toNat_ofNat, BitVec.toNat_ofNat]; omega)

@[simp] theorem fieldY_ofNat (k : Nat) : fieldY (BitVec.ofNat 16 k) = BitVec.ofNat 4 (k / 16) :=
  BitVec.eq_of_toNat_eq (by rw [toNat_fieldY, BitVec.toNat_ofNat, BitVec.toNat_ofNat]; omega)

@[simp] theorem fieldN_ofNat (k : Nat) : fieldN (BitVec.ofNat 16 k) = BitVec.ofNat 4 k :=
  BitVec.eq_of_toNat_eq (by rw [toNat_fieldN, BitVec.toNat_ofNat, BitVec.toNat_ofNat]; omega)

@[simp] theorem fieldNN_ofNat (k : Nat) : fieldNN (BitVec.ofNat 16 k) = BitVec.ofNat 8 k :=
  BitVec.eq_of_toNat_eq (by rw [toNat_fieldNN, BitVec.toNat_ofNat, BitVec.toNat_ofNat]; omega)

@[simp] theorem fieldNNN_ofNat (k : Nat) : fieldNNN (BitVec.ofNat 16 k) = BitVec.ofNat 12 k :=
  BitVec.eq_of_toNat_eq (by rw [toNat_fieldNNN, BitVec.toNat_ofNat, BitVec.toNat_ofNat]; omega)

@[simp] theorem fieldGroup_or (a b : Word) : fieldGroup (a ||| b) = fieldGroup a ||| fieldGroup b := BitVec.extractLsb'_or
@[simp] theorem fieldX_or (a b : Word) : fieldX (a ||| b) = fieldX a ||| fieldX b := BitVec.extractLsb'_or
@[simp] theorem fieldY_or (a b : Word) : fieldY (a ||| b) = fieldY a ||| fieldY b := BitVec.extractLsb'_or
@[simp] theorem fieldN_or (a b : Word) : fieldN (a ||| b) = fieldN a ||| fieldN b := BitVec.extractLsb'_or
@[simp] theorem fieldNN_or (a b : Word) : fieldNN (a ||| b) = fieldNN a ||| fieldNN b := BitVec.extractLsb'_or
@[simp] theorem fieldNNN_or (a b : Word) : fieldNNN (a ||| b) = fieldNNN a ||| fieldNNN b := BitVec.extractLsb'_or

theorem toNat_atX (x : Reg) : (atX x).toNat = 256 * x.toNat := by
  rw [atX, BitVec.toNat_shiftLeft, BitVec.toNat_setWidth_of_le (by decide), Nat.shiftLeft_eq]; omega

theorem toNat_atY (y : Reg) : (atY y).toNat = 16 * y.toNat := by
  rw [atY, BitVec.toNat_shiftLeft, BitVec.toNat_setWidth_of_le (by decide), Nat.shiftLeft_eq]; omega

theorem toNat_atN (n : Nibble) : (atN n).toNat = n.toNat := BitVec.toNat_setWidth_of_le (by decide)
theorem toNat_atNN (nn : Byte) : (atNN nn).toNat = nn.toNat := BitVec.toNat_setWidth_of_le (by decide)
theorem toNat_atNNN (nnn : Addr) : (atNNN nnn).toNat = nnn.toNat := BitVec.toNat_setWidth_of_le (by decide)

@[simp] theorem fieldGroup_atX (x : Reg) : fieldGroup (atX x) = 0#4 :=
  BitVec.eq_of_toNat_eq (by rw [toNat_fieldGroup, toNat_atX, BitVec.toNat_zero]; omega)
@[simp] theorem fieldX_atX (x : Reg) : fieldX (atX x) = x :=
  BitVec.eq_of_toNat_eq (by rw [toNat_fieldX, toNat_atX]; omega)
@[simp] theorem fieldY_atX (x : Reg) : fieldY (atX x) = 0#4 :=
  BitVec.eq_of_toNat_eq (by rw [toNat_fieldY, toNat_atX, BitVec.toNat_zero]; omega)
@[simp] theorem fieldN_atX (x : Reg) : fieldN (atX x) = 0#4 :=
  BitVec.eq_of_toNat_eq (by rw [toNat_fieldN, toNat_atX, BitVec.toNat_zero]; omega)
@[simp] theorem fieldNN_atX (x : Reg) : fieldNN (atX x) = 0#8 :=
  BitVec.eq_of_toNat_eq (by rw [toNat_fieldNN, toNat_atX, BitVec.toNat_zero]; omega)

@[simp] theorem fieldGroup_atY (y : Reg) : fieldGroup (atY y) = 0#4 :=
  BitVec.eq_of_toNat_eq (by rw [toNat_fieldGroup, toNat_atY, BitVec.toNat_zero]; omega)
@[simp] theorem fieldX_atY (y : Reg) : fieldX (atY y) = 0#4 :=
  BitVec.eq_of_toNat_eq (by rw [toNat_fieldX, toNat_atY, BitVec.toNat_zero]; omega)
@[simp] theorem fieldY_atY (y : Reg) : fieldY (atY y) = y :=
  BitVec.eq_of_toNat_eq (by rw [toNat_fieldY, toNat_atY]; omega)
@[simp] theorem fieldN_atY (y : Reg) : fieldN (atY y) = 0#4 :=
  BitVec.eq_of_toNat_eq (by rw [toNat_fieldN, toNat_atY, BitVec.toNat_zero]; omega)

@[simp] theorem fieldGroup_atN (n : Nibble) : fieldGroup (atN n) = 0#4 :=
  BitVec.eq_of_toNat_eq (by rw [toNat_fieldGroup, toNat_atN, BitVec.toNat_zero]; omega)
@[simp] theorem fieldX_atN (n : Nibble) : fieldX (atN n) = 0#4 :=
  BitVec.eq_of_toNat_eq (by rw [toNat_fieldX, toNat_atN, BitVec.toNat_zero]; omega)
@[simp] theorem fieldY_atN (n : Nibble) : fieldY (atN n) = 0#4 :=
  BitVec.eq_of_toNat_eq (by rw [toNat_fieldY, toNat_atN, BitVec.toNat_zero]; omega)
@[simp] theorem fieldN_atN (n : Nibble) : fieldN (atN n) = n :=
  BitVec.eq_of_toNat_eq (by rw [toNat_fieldN, toNat_atN]; omega)

@[simp] theorem fieldGroup_atNN (nn : Byte) : fieldGroup (atNN nn) = 0#4 :=
  BitVec.eq_of_toNat_eq (by rw [toNat_fieldGroup, toNat_atNN, BitVec.toNat_zero]; omega)
@[simp] theorem fieldX_atNN (nn : Byte) : fieldX (atNN nn) = 0#4 :=
  BitVec.eq_of_toNat_eq (by rw [toNat_fieldX, toNat_atNN, BitVec.toNat_zero]; omega)
@[simp] theorem fieldNN_atNN (nn : Byte) : fieldNN (atNN nn) = nn :=
  BitVec.eq_of_toNat_eq (by rw [toNat_fieldNN, toNat_atNN]; omega)

@[simp] theorem fieldGroup_atNNN (nnn : Addr) : fieldGroup (atNNN nnn) = 0#4 :=
  BitVec.eq_of_toNat_eq (by rw [toNat_fieldGroup, toNat_atNNN, BitVec.toNat_zero]; omega)
@[simp] theorem fieldNNN_atNNN (nnn : Addr) : fieldNNN (atNNN nnn) = nnn :=
  BitVec.eq_of_toNat_eq (by rw [toNat_fieldNNN, toNat_atNNN]; omega)

/-! ## From a row of the table to its instruction (R65, R66) -/

/-- The instruction of r's row with its operands read from the fields of w (R61). -/
def Instr.withFields (r : Instr) (w : Word) : Instr :=
  match r with
  | .clr => .clr
  | .rts => .rts
  | .jump _ => .jump (fieldNNN w)
  | .call _ => .call (fieldNNN w)
  | .ske _ _ => .ske (fieldX w) (fieldNN w)
  | .skne _ _ => .skne (fieldX w) (fieldNN w)
  | .skre _ _ => .skre (fieldX w) (fieldY w)
  | .skrne _ _ => .skrne (fieldX w) (fieldY w)
  | .load _ _ => .load (fieldX w) (fieldNN w)
  | .add _ _ => .add (fieldX w) (fieldNN w)
  | .move _ _ => .move (fieldX w) (fieldY w)
  | .or _ _ => .or (fieldX w) (fieldY w)
  | .and _ _ => .and (fieldX w) (fieldY w)
  | .xor _ _ => .xor (fieldX w) (fieldY w)
  | .addr _ _ => .addr (fieldX w) (fieldY w)
  | .sub _ _ => .sub (fieldX w) (fieldY w)
  | .subn _ _ => .subn (fieldX w) (fieldY w)
  | .shr _ _ => .shr (fieldX w) (fieldY w)
  | .shl _ _ => .shl (fieldX w) (fieldY w)
  | .loadi _ => .loadi (fieldNNN w)
  | .jumpi _ => .jumpi (fieldNNN w)
  | .rand _ _ => .rand (fieldX w) (fieldNN w)
  | .draw _ _ _ => .draw (fieldX w) (fieldY w) (fieldN w)
  | .skp _ => .skp (fieldX w)
  | .sknp _ => .sknp (fieldX w)
  | .moved _ => .moved (fieldX w)
  | .keyd _ => .keyd (fieldX w)
  | .loadd _ => .loadd (fieldX w)
  | .loads _ => .loads (fieldX w)
  | .addi _ => .addi (fieldX w)
  | .ldspr _ => .ldspr (fieldX w)
  | .bcd _ => .bcd (fieldX w)
  | .stor _ => .stor (fieldX w)
  | .read _ => .read (fieldX w)

@[simp] theorem matchMask_withFields (r : Instr) (w : Word) : (r.withFields w).matchMask = r.matchMask := by
  cases r <;> rfl

/-- A field that the mask covers is the field of the row's match. -/
theorem extract_of_mask {start len : Nat} {w mask row : Word} (hm : mask.extractLsb' start len = BitVec.allOnes len)
    (h : w &&& mask = row) : w.extractLsb' start len = row.extractLsb' start len := by
  rw [← h, BitVec.extractLsb'_and, hm, BitVec.and_allOnes]

theorem fieldN_of_mask {w row : Word} (h : w &&& 0xF00F = row) : fieldGroup w = fieldGroup row ∧ fieldN w = fieldN row :=
  ⟨extract_of_mask (by decide) h, extract_of_mask (by decide) h⟩

theorem fieldNN_of_mask {w row : Word} (h : w &&& 0xF0FF = row) : fieldGroup w = fieldGroup row ∧ fieldNN w = fieldNN row :=
  ⟨extract_of_mask (by decide) h, extract_of_mask (by decide) h⟩

/-- A word that matches a row decodes to the row's instruction: the mask covers just the fields that the decode procedure tests. -/
theorem decodeWord_of_row {r : Instr} {w : Word} (h : w &&& r.matchMask.2 = r.matchMask.1) :
    decodeWord w = .ok (r.withFields w) := by
  cases r
  case clr | rts =>
    obtain rfl := (BitVec.and_allOnes (x := w)).symm.trans h
    rfl
  case jump | call | ske | skne | load | add | loadi | jumpi | rand | draw =>
    have hg := fieldGroup_of_groupMask h
    simp [decodeWord, Instr.withFields, hg, Instr.matchMask]
  case skre | skrne | move | or | and | xor | addr | sub | subn | shr | shl =>
    obtain ⟨hg, hn⟩ := fieldN_of_mask h
    simp [decodeWord, Instr.withFields, hg, hn, Instr.matchMask]
  case skp | sknp | moved | keyd | loadd | loads | addi | ldspr | bcd | stor | read =>
    obtain ⟨hg, hnn⟩ := fieldNN_of_mask h
    simp [decodeWord, Instr.withFields, hg, hnn, Instr.matchMask]

/-- `decodeWord_of_row` for every word of the row. -/
theorem rowDecodes (r : Instr) : Machine.RowDecodes r.matchMask.1 r.matchMask.2 r.withFields := fun _ => decodeWord_of_row

/-- Settles O4: row by row, `decodeWord_of_row`. -/
theorem eachRowDecodesToItsInstruction : Obligations.EachRowDecodesToItsInstruction :=
  ⟨rowDecodes .clr, rowDecodes .rts, rowDecodes (.jump 0), rowDecodes (.call 0), rowDecodes (.ske 0 0),
    rowDecodes (.skne 0 0), rowDecodes (.skre 0 0), rowDecodes (.skrne 0 0), rowDecodes (.load 0 0), rowDecodes (.add 0 0),
    rowDecodes (.move 0 0), rowDecodes (.or 0 0), rowDecodes (.and 0 0), rowDecodes (.xor 0 0), rowDecodes (.addr 0 0),
    rowDecodes (.sub 0 0), rowDecodes (.subn 0 0), rowDecodes (.shr 0 0), rowDecodes (.shl 0 0), rowDecodes (.loadi 0),
    rowDecodes (.jumpi 0), rowDecodes (.rand 0 0), rowDecodes (.draw 0 0 0), rowDecodes (.skp 0), rowDecodes (.sknp 0),
    rowDecodes (.moved 0), rowDecodes (.keyd 0), rowDecodes (.loadd 0), rowDecodes (.loads 0), rowDecodes (.addi 0),
    rowDecodes (.ldspr 0), rowDecodes (.bcd 0), rowDecodes (.stor 0), rowDecodes (.read 0)⟩

/-! ## From an instruction to its word and back -/

/-- The word of an instruction selects the instruction's row. -/
theorem encode_and_mask (i : Instr) : encode i &&& i.matchMask.2 = i.matchMask.1 := by
  cases i with
  | clr => exact Laws.RowMatch.clr
  | rts => exact Laws.RowMatch.rts
  | jump nnn => exact Laws.RowMatch.jump nnn
  | call nnn => exact Laws.RowMatch.call nnn
  | ske x nn => exact Laws.RowMatch.ske x nn
  | skne x nn => exact Laws.RowMatch.skne x nn
  | skre x y => exact Laws.RowMatch.skre x y
  | skrne x y => exact Laws.RowMatch.skrne x y
  | load x nn => exact Laws.RowMatch.load x nn
  | add x nn => exact Laws.RowMatch.add x nn
  | move x y => exact Laws.RowMatch.move x y
  | or x y => exact Laws.RowMatch.or x y
  | and x y => exact Laws.RowMatch.and x y
  | xor x y => exact Laws.RowMatch.xor x y
  | addr x y => exact Laws.RowMatch.addr x y
  | sub x y => exact Laws.RowMatch.sub x y
  | subn x y => exact Laws.RowMatch.subn x y
  | shr x y => exact Laws.RowMatch.shr x y
  | shl x y => exact Laws.RowMatch.shl x y
  | loadi nnn => exact Laws.RowMatch.loadi nnn
  | jumpi nnn => exact Laws.RowMatch.jumpi nnn
  | rand x nn => exact Laws.RowMatch.rand x nn
  | draw x y n => exact Laws.RowMatch.draw x y n
  | skp x => exact Laws.RowMatch.skp x
  | sknp x => exact Laws.RowMatch.sknp x
  | moved x => exact Laws.RowMatch.moved x
  | keyd x => exact Laws.RowMatch.keyd x
  | loadd x => exact Laws.RowMatch.loadd x
  | loads x => exact Laws.RowMatch.loads x
  | addi x => exact Laws.RowMatch.addi x
  | ldspr x => exact Laws.RowMatch.ldspr x
  | bcd x => exact Laws.RowMatch.bcd x
  | stor x => exact Laws.RowMatch.stor x
  | read x => exact Laws.RowMatch.read x

/-- The operands stand in the word where the row's fields read them. -/
theorem withFields_encode (i : Instr) : i.withFields (encode i) = i := by
  cases i <;> simp [Instr.withFields, encode]

theorem decodeWord_encode (i : Instr) : decodeWord (encode i) = .ok i := by
  rw [decodeWord_of_row (encode_and_mask i), withFields_encode]

theorem wordOfBytes_highByte_lowByte (w : Word) : wordOfBytes (highByte w) (lowByte w) = w := by
  refine BitVec.eq_of_getLsbD_eq fun j hj => ?_
  interval_cases j <;> simp [wordOfBytes, highByte, lowByte]

/-- Settles O1: the encoding matches its row, and the row's fields give the operands back. -/
theorem decodeOfEncodeIsTheInstruction : Obligations.DecodeOfEncodeIsTheInstruction := by
  intro i
  refine ⟨decodeWord_encode i, ?_⟩
  simp [encodeBytes, decode, wordOfBytes_highByte_lowByte, decodeWord_encode]

/-- A word that decodes is built from the row's fixed bits and the fields that its instruction took: by the branches of the decode
procedure, one format of the operands after the other. -/
theorem encode_of_decodeWord {w : Word} {i : Instr} (h : decodeWord w = .ok i) : encode i = w := by
  revert h
  fun_cases decodeWord w
  all_goals rintro ⟨⟩
  -- CLR and RTS, each one word; then the operands nnn; x and nn; x and y under a fixed n; x, y and n; x under a fixed nn
  case case1 _ hw | case2 _ _ hw => exact hw.symm
  case case4 hg | case5 hg | case24 hg | case25 hg =>
    exact word_ext_nnn (by simp [encode, hg]) (by simp [encode])
  case case6 hg | case7 hg | case10 hg | case11 hg | case26 hg =>
    exact word_ext_nn (by simp [encode, hg]) (by simp [encode]) (by simp [encode])
  case case8 hg hn | case22 hg hn | case12 hg hn | case13 hg hn | case14 hg hn | case15 hg hn | case16 hg hn | case17 hg hn |
      case18 hg hn | case19 hg hn | case20 hg hn =>
    exact word_ext_n (by simp [encode, hg]) (by simp [encode]) (by simp [encode]) (by simp [encode, hn])
  case case27 hg =>
    exact word_ext_n (by simp [encode, hg]) (by simp [encode]) (by simp [encode]) (by simp [encode])
  case case28 hg hnn | case29 hg hnn | case31 hg hnn | case32 hg hnn | case33 hg hnn | case34 hg hnn | case35 hg hnn |
      case36 hg hnn | case37 hg hnn | case38 hg hnn | case39 hg hnn =>
    exact word_ext_nn (by simp [encode, hg]) (by simp [encode]) (by simp [encode, hnn])

/-- Settles O2. -/
theorem encodeOfDecodeIsTheWord : Obligations.EncodeOfDecodeIsTheWord := fun _ _ => encode_of_decodeWord

/-! ## Every word: one row, or none -/

/-- The decode procedure is total, and rejects a word by name. -/
theorem decodeWord_ok_or_unknown (w : Word) : (∃ i, decodeWord w = .ok i) ∨ decodeWord w = .error (.unknownInstruction w) := by
  fun_cases decodeWord w <;> simp

/-- A word matches a row exactly when it decodes to an instruction of that row. -/
theorem matches_row_iff (r : Instr) (w : Word) :
    w &&& r.matchMask.2 = r.matchMask.1 ↔ ∃ i, decodeWord w = .ok i ∧ i.matchMask = r.matchMask := by
  constructor
  · exact fun h => ⟨_, decodeWord_of_row h, matchMask_withFields r w⟩
  · rintro ⟨i, hi, hrow⟩
    rw [← encode_of_decodeWord hi, ← hrow, encode_and_mask]

/-- Every instruction is of one of the 34 rows. -/
theorem exists_opcodeRow (i : Instr) : ∃ r ∈ opcodeRows, r.matchMask = i.matchMask := by
  refine ⟨i.withFields 0, ?_, matchMask_withFields i 0⟩
  cases i <;> exact List.mem_of_elem_eq_true rfl

/-- The 34 rows have 34 different matches. -/
theorem opcodeRow_eq {r r' : Instr} (hr : r ∈ opcodeRows) (hr' : r' ∈ opcodeRows) (h : r.matchMask = r'.matchMask) : r = r' :=
  List.inj_on_of_nodup_map (by decide : (opcodeRows.map fun r => r.matchMask.1).Nodup) hr hr' (congrArg Prod.fst h)

/-- Settles O3: rows and instructions say the same of a word, and a word decodes to one instruction at most. -/
theorem rowsSelectTheInstruction : Obligations.RowsSelectTheInstruction := by
  intro w
  refine ⟨fun r _ => matches_row_iff r w, ⟨fun hunknown r _ hmatch => ?_, fun hnone => ?_⟩,
    fun r hr r' hr' hmatch hmatch' => ?_⟩
  · rw [decodeWord_of_row hmatch] at hunknown
    cases hunknown
  · refine (decodeWord_ok_or_unknown w).resolve_left fun ⟨i, hi⟩ => ?_
    obtain ⟨r, hr, hrow⟩ := exists_opcodeRow i
    exact hnone r hr ((matches_row_iff r w).2 ⟨i, hi, hrow.symm⟩)
  · obtain ⟨i, hi, hrow⟩ := (matches_row_iff r w).1 hmatch
    obtain ⟨i', hi', hrow'⟩ := (matches_row_iff r' w).1 hmatch'
    obtain rfl : i = i' := Except.ok.inj (hi.symm.trans hi')
    exact opcodeRow_eq hr hr' (hrow.symm.trans hrow')

theorem nibble_cases (n : BitVec 4) :
    n = 0#4 ∨ n = 1#4 ∨ n = 2#4 ∨ n = 3#4 ∨ n = 4#4 ∨ n = 5#4 ∨ n = 6#4 ∨ n = 7#4 ∨
      n = 8#4 ∨ n = 9#4 ∨ n = 10#4 ∨ n = 11#4 ∨ n = 12#4 ∨ n = 13#4 ∨ n = 14#4 ∨ n = 15#4 := by
  revert n
  decide

/-- Settles O5: the branches of the decode procedure, each with the group it is in. The branches for every other n, and for every other
group, exclude the values before them, which leaves the listed ones. -/
theorem unknownWordsAreTheListedOnes : Obligations.UnknownWordsAreTheListedOnes := by
  intro w
  fun_cases decodeWord w
  case case21 =>
    have hn := nibble_cases (fieldN w)
    simp_all
  case case30 | case40 => simp_all
  case case41 =>
    have hg := nibble_cases (fieldGroup w)
    simp_all
  all_goals simp [*]

/-! ## Two bytes -/

theorem toNat_wordOfBytes (b0 b1 : Byte) : (wordOfBytes b0 b1).toNat = 256 * b0.toNat + b1.toNat := by
  rw [wordOfBytes, BitVec.toNat_or, BitVec.toNat_shiftLeft, BitVec.toNat_setWidth_of_le (by decide),
    BitVec.toNat_setWidth_of_le (by decide), Nat.mod_eq_of_lt (by rw [Nat.shiftLeft_eq]; omega),
    ← Nat.shiftLeft_add_eq_or_of_lt b1.isLt, Nat.shiftLeft_eq, Nat.mul_comm]

/-- Settles O6. -/
theorem decodeTakesTwoBytesHighByteFirst : Obligations.DecodeTakesTwoBytesHighByteFirst := by
  refine ⟨rfl, fun _ => rfl, fun b0 b1 rest w hw => ?_⟩
  obtain rfl : w = wordOfBytes b0 b1 := BitVec.eq_of_toNat_eq (hw.trans (toNat_wordOfBytes b0 b1).symm)
  exact ⟨fun i h => by simp only [decode, h], fun e h => by simp only [decode, h]⟩

/-- Settles O7. -/
theorem specWordsDecodeAsListed : Obligations.SpecWordsDecodeAsListed := ⟨rfl, rfl, rfl, rfl, rfl, rfl, rfl⟩

end Sys2Proof
end

section
/-! SUPPORT. Every instruction is one check and then its writes (00_scope.md R8, 60_exceptions.md R169): `exec_eq`. What is said of all
34 instructions follows from it, the check and the writes taken apart: which faults they take, and which parts they change. -/

namespace Sys2Proof.Machine

/-! ## The check and the writes of an instruction -/

/-- A check that takes the fault, if there is one. -/
def faultCheck : Option FaultRecord → Attempt Unit
  | none => .ok ()
  | some r => .raise r

/-- The check of an instruction: its one fault, and for the call stack what a count above 16 does, which no run reaches (log 21). -/
def checkOf (i : Instr) (s : State) : Attempt Unit :=
  match i with
  | .rts => if s.sp.toNat ≤ 16 then faultCheck (faultOf .rts s) else .fault .noStackSlot
  | .call _ => if s.sp.toNat < 16 then .ok () else .raise (.stackOverflow (s.pc - 2))
  | i => faultCheck (faultOf i s)

/-- The writes of an instruction whose check holds. -/
def effectOf (i : Instr) (s : State) : State :=
  match i with
  | .clr => s.setVideo Video.clear
  | .rts => { s with sp := s.sp - 1, pc := s.stack[s.sp.toNat - 1]?.getD 0 }
  | .jump nnn => s.setPc (zextAddr nnn)
  | .call nnn => { s with stack := s.stack.setIfInBounds s.sp.toNat s.pc, sp := s.sp + 1, pc := zextAddr nnn }
  | .ske x nn => s.skipIf (s.reg x == nn)
  | .skne x nn => s.skipIf (s.reg x != nn)
  | .skre x y => s.skipIf (s.reg x == s.reg y)
  | .skrne x y => s.skipIf (s.reg x != s.reg y)
  | .load x nn => s.setReg x nn
  | .add x nn => s.setReg x (s.reg x + nn)
  | .move x y => s.setReg x (s.reg y)
  | .or x y => s.setReg x (s.reg x ||| s.reg y)
  | .and x y => s.setReg x (s.reg x &&& s.reg y)
  | .xor x y => s.setReg x (s.reg x ^^^ s.reg y)
  | .addr x y => s.resultThenFlag x (s.reg x + s.reg y) (carryOut (s.reg x) (s.reg y))
  | .sub x y => s.resultThenFlag x (s.reg x - s.reg y) (noBorrow (s.reg x) (s.reg y))
  | .subn x y => s.resultThenFlag x (s.reg y - s.reg x) (noBorrow (s.reg y) (s.reg x))
  | .shr x _ => (s.setReg 0xF (flagByte (lowBit (s.reg x)))).setReg x (s.reg x >>> 1)
  | .shl x _ => (s.setReg 0xF (flagByte (highBit (s.reg x)))).setReg x (s.reg x <<< 1)
  | .loadi nnn => s.setI (zextAddr nnn)
  | .jumpi nnn => s.setPc (zextByte (s.reg 0) + zextAddr nnn)
  | .rand x nn => s.drawByte.2.setReg x (nn &&& s.drawByte.1)
  | .draw x y n => s.drawSprite x y (s.ram.readFrom .fault s.i.toNat n.toNat)
  | .skp x => s.skipIf (s.keys.getLsbD (s.reg x).toNat)
  | .sknp x => s.skipIf (!s.keys.getLsbD (s.reg x).toNat)
  | .moved x => s.setReg x s.dt
  | .keyd x => (lowestKey s.keys).elim (s.setPc (s.pc - 2)) fun k => s.setReg x (BitVec.ofNat 8 k)
  | .loadd x => s.setDt (s.reg x)
  | .loads x => s.setSt (s.reg x)
  | .addi x => s.setI (s.i + zextByte (s.reg x))
  | .ldspr x => s.setI (5 * zextByte (s.reg x))
  | .bcd x => s.setRam (s.ram.writeFrom .fault s.i.toNat (bcdDigits (s.reg x)))
  | .stor x => s.setRam (s.ram.writeFrom .fault s.i.toNat (s.regsBelow x))
  | .read x => s.setRegsFrom 0 (s.ram.readFrom .fault s.i.toNat (x.toNat + 1))

section
variable (s : State)

/-- MemRead takes its one fault, or goes on with the bytes. -/
theorem attempt_memRead (n : Nat) (k : List Byte → State) : s.attempt (memRead dataOor s.ram s.i n) k =
    s.attempt (faultCheck (addressFaultIn s n)) fun _ => k (s.ram.readFrom .fault s.i.toNat n) := by
  obtain ⟨hr, e⟩ | ⟨hn, hr, e⟩ := memRead_cases s.ram s.i n
  · rw [e, addressFaultIn, if_neg (by omega)]; rfl
  · rw [e, addressFaultIn, if_pos ⟨hn, hr⟩]; rfl

/-- MemWrite takes its one fault, or goes on with the bytes written. -/
theorem attempt_memWrite (bs : List Byte) : s.attempt (memWrite dataOor s.ram s.i bs) s.setRam =
    s.attempt (faultCheck (addressFaultIn s bs.length)) fun _ => s.setRam (s.ram.writeFrom .fault s.i.toNat bs) := by
  obtain ⟨hr, e⟩ | ⟨hn, hr, e⟩ := memWrite_cases s.ram s.i bs
  · rw [e, addressFaultIn, if_neg (by omega)]; rfl
  · rw [e, addressFaultIn, if_pos ⟨hn, hr⟩]; rfl

/-- A key test takes its one fault, or goes on with the key. -/
theorem attempt_keyPressed (x : Reg) (k : Bool → State) : s.attempt (keyPressed keyIndexOor s.keys (s.reg x)) k =
    s.attempt (faultCheck (keyFaultIn s x)) fun _ => k (s.keys.getLsbD (s.reg x).toNat) := by
  obtain ⟨hk, e⟩ | ⟨hk, e⟩ := keyPressed_cases s.keys (s.reg x)
  · rw [e, keyFaultIn, if_neg (by omega)]; rfl
  · rw [e, keyFaultIn, if_pos hk]; rfl

theorem exec_rts : exec .rts s = s.attempt (checkOf .rts s) fun _ => effectOf .rts s := by
  have hpos : 0 < s.sp.toNat → s.sp ≠ 0 := by
    rintro h h0
    simp [h0] at h
  by_cases hs : s.sp.toNat ≤ 16
  · have hcheck : checkOf .rts s = faultCheck (faultOf .rts s) := if_pos hs
    rw [hcheck]
    obtain ⟨h0, e⟩ | ⟨a, h0, ha, e⟩ := pop_cases s hs
    · have hf : faultOf .rts s = some (.stackUnderflow s.pc0) := if_pos h0
      rw [exec, execRts, e, hf]
      rfl
    · have hf : faultOf .rts s = none := if_neg (hpos h0)
      simp [exec, execRts, e, hf, faultCheck, State.attempt, effectOf, ha]
  · have hcheck : checkOf .rts s = .fault .noStackSlot := if_neg hs
    have hnone : s.stack[s.sp.toNat - 1]? = none := by simp; omega
    rw [exec, execRts, State.pop, if_neg (hpos (by omega)), hnone, hcheck]
    rfl

theorem exec_call (nnn : Addr) : exec (.call nnn) s = s.attempt (checkOf (.call nnn) s) fun _ => effectOf (.call nnn) s := by
  obtain ⟨h, e⟩ | ⟨h, e⟩ := push_cases s
  · simp [exec, execCall, e, checkOf, h, State.attempt, State.setPc, effectOf, Vector.setIfInBounds, Vector.set, Array.setIfInBounds]
  · simp [exec, execCall, e, checkOf, Nat.not_lt.2 h, State.attempt, State.pc0]

/-- Every instruction is its one check and then its writes. -/
theorem exec_eq (i : Instr) : exec i s = s.attempt (checkOf i s) fun _ => effectOf i s := by
  cases i
  case rts => exact exec_rts s
  case call nnn => exact exec_call s nnn
  case draw x y n => exact attempt_memRead s n.toNat (s.drawSprite x y)
  case read x => exact attempt_memRead s (x.toNat + 1) (s.setRegsFrom 0)
  case bcd x => exact attempt_memWrite s (bcdDigits (s.reg x))
  case stor x =>
    have h := attempt_memWrite s (s.regsBelow x)
    rw [length_regsBelow] at h
    exact h
  case skp x => exact attempt_keyPressed s x s.skipIf
  case sknp x => exact attempt_keyPressed s x fun p => s.skipIf (!p)
  case keyd x =>
    simp only [exec, execKeyd, checkOf, faultOf, faultCheck, State.attempt, effectOf]
    cases lowestKey s.keys <;> rfl
  all_goals rfl

/-- An instruction whose check holds completes with its writes. -/
theorem exec_of_check {i : Instr} (h : checkOf i s = .ok ()) : exec i s = .next (effectOf i s) := by
  rw [exec_eq, h, State.attempt]

end

/-- All that an instruction's next state can be: its writes, or the old state with the fault recorded. -/
theorem exec_next {i : Instr} {s t : State} (h : exec i s = .next t) :
    (checkOf i s = .ok () ∧ t = effectOf i s) ∨
    (∃ r, checkOf i s = .raise r ∧ t = { s with halted := true, fault := some r }) := by
  rw [exec_eq] at h
  exact (attempt_next s _ _ h).imp_left fun ⟨_, hc, ht⟩ => ⟨hc, ht⟩

/-! ## What an instruction changes -/

/-- A write changes no other byte, whatever form the ram has. -/
theorem read_write_ne (m : Memory) {a a' : Nat} (b : Byte) (h : a' ≠ a) : (m.write a b).read a' = m.read a' := by
  fun_induction Memory.write m a b <;> simp_all [Memory.read, Ne.symm h]

/-- A write of a range changes no byte outside it. -/
theorem read_writeFrom_outside (m : Memory) {a a' : Nat} (bs : List Byte) (h : a' < a ∨ a + bs.length ≤ a') :
    (m.writeFrom .fault a bs).read a' = m.read a' := by
  induction bs generalizing m a with
  | nil => rfl
  | cons b bs ih =>
    simp only [List.length_cons] at h
    rw [Memory.writeFrom, ih _ (by omega)]
    by_cases ha : a < 4096
    · rw [elementPlace_lt .fault ha]
      exact read_write_ne m b (by omega)
    · simp [elementPlace, ha]

theorem frame_writeFrom (s : State) (a : Nat) (bs : List Byte) :
    Frame (bytesAt a bs.length) s (s.setRam (s.ram.writeFrom .fault a bs)) := by
  constructor <;> try (intros; rfl)
  intro a' ha
  refine read_writeFrom_outside s.ram bs (by_contra fun h => ha ?_)
  simp only [bytesAt, List.mem_map, List.mem_range]
  exact ⟨a' - a, by omega, by congr 1; omega⟩

/-- The two writes of a shift. -/
theorem frame_flagThenResult (s : State) (x : Reg) (b f : Byte) : Frame [.reg x, .reg 0xF] s ((s.setReg 0xF f).setReg x b) :=
  Frame.trans (frame_setReg s 0xF f) (frame_setReg _ x b) (by simp) (by simp)

/-- The writes of an instruction change the parts that its rule names (10_state.md R35), and no other. -/
theorem frame_effectOf (i : Instr) (s : State) : Frame (writesOf i s) s (effectOf i s) := by
  cases i with
  | clr => exact frame_setVideo s Video.clear
  | rts => constructor <;> simp [effectOf, writesOf, State.reg]
  | call nnn => constructor <;> simp +contextual [effectOf, writesOf, State.reg, eq_comm]
  | jump nnn => exact frame_setPc s _
  | jumpi nnn => exact frame_setPc s _
  | ske x nn => exact frame_skipIf s _
  | skne x nn => exact frame_skipIf s _
  | skre x y => exact frame_skipIf s _
  | skrne x y => exact frame_skipIf s _
  | skp x => exact frame_skipIf s _
  | sknp x => exact frame_skipIf s _
  | load x nn => exact frame_setReg s x _
  | add x nn => exact frame_setReg s x _
  | move x y => exact frame_setReg s x _
  | or x y => exact frame_setReg s x _
  | and x y => exact frame_setReg s x _
  | xor x y => exact frame_setReg s x _
  | moved x => exact frame_setReg s x _
  | addr x y => exact frame_resultThenFlag s x _ _
  | sub x y => exact frame_resultThenFlag s x _ _
  | subn x y => exact frame_resultThenFlag s x _ _
  | shr x y => exact frame_flagThenResult s x _ _
  | shl x y => exact frame_flagThenResult s x _ _
  | rand x nn => exact Frame.trans (frame_drawByte s) (frame_setReg _ x _) (by simp [writesOf]) (by simp [writesOf])
  | draw x y n => exact Frame.trans (frame_setReg s 0xF _) (frame_setVideo _ _) (by simp [writesOf]) (by simp [writesOf])
  | keyd x =>
    simp only [effectOf, writesOf]
    cases lowestKey s.keys with
    | none => exact (frame_setPc s _).mono (by simp)
    | some k => exact (frame_setReg s x _).mono (by simp)
  | loadd x => exact frame_setDt s _
  | loads x => exact frame_setSt s _
  | loadi nnn => exact frame_setI s _
  | addi x => exact frame_setI s _
  | ldspr x => exact frame_setI s _
  | bcd x => exact frame_writeFrom s _ (bcdDigits (s.reg x))
  | stor x =>
    have h := frame_writeFrom s s.i.toNat (s.regsBelow x)
    rw [length_regsBelow] at h
    exact h
  | read x =>
    have h := frame_setRegsFrom s (s.ram.readFrom .fault s.i.toNat (x.toNat + 1)) (by rw [length_readFrom]; omega)
    rw [length_readFrom] at h
    exact h

/-- No instruction writes ir, the keys, the fault record or the host's fields. -/
theorem notMem_writesOf (i : Instr) (s : State) {p : Part} (hp : p ∈ [.ir, .keys, .halted, .fault, .events, .loadOpen]) :
    p ∉ writesOf i s := by
  simp only [List.mem_cons, List.not_mem_nil, or_false] at hp
  obtain rfl | rfl | rfl | rfl | rfl | rfl := hp <;> cases i <;> simp [writesOf, allCells, bytesAt, regsUpTo]

end Sys2Proof.Machine
end

section
/-! SUPPORT. The fault or the completion of every instruction, the parts it may change, and the invariant: each operation on the state
keeps it, so the writes of every instruction do, and a cycle, and a step. -/

namespace Sys2Proof.Machine

variable {s t : State}

/-! ## Faults and frames of all instructions -/

/-- With at most 16 pending return addresses the check of an instruction is its fault of 60_exceptions.md R160. -/
theorem checkOf_eq_faultCheck (i : Instr) (hs : s.sp.toNat ≤ 16) : checkOf i s = faultCheck (faultOf i s) := by
  cases i
  case rts => exact if_pos hs
  case call nnn =>
    by_cases h : s.sp = 16
    · simp [checkOf, faultOf, h, faultCheck]
    · have hlt : s.sp.toNat < 16 := by
        have hne : s.sp.toNat ≠ 16 := fun e => h (BitVec.eq_of_toNat_eq e)
        omega
      rw [checkOf, if_pos hlt, faultOf, if_neg h, faultCheck]
  all_goals rfl

theorem exec_of_fault {i : Instr} {r : FaultRecord} (hs : s.sp.toNat ≤ 16) (hr : faultOf i s = some r) :
    exec i s = .next { s with halted := true, fault := some r } := by
  rw [exec_eq, checkOf_eq_faultCheck i hs, hr]
  rfl

theorem exec_of_noFault {i : Instr} (hs : s.sp.toNat ≤ 16) (hnone : faultOf i s = none) : exec i s = .next (effectOf i s) :=
  exec_of_check s (by rw [checkOf_eq_faultCheck i hs, hnone, faultCheck])

/-- Settles O12: the check is the fault, and the writes leave halted and fault alone. -/
theorem everyInstructionCompletesOrFaults : Obligations.EveryInstructionCompletesOrFaults := by
  intro i s hs
  have hframe := frame_effectOf i s
  exact ⟨fun r hr => exec_of_fault hs hr, fun hnone => ⟨effectOf i s, exec_of_noFault hs hnone,
    hframe.halted (notMem_writesOf i s (by simp)), hframe.fault (notMem_writesOf i s (by simp))⟩⟩

/-- The frame of the writes, or of a recorded fault; whatever form the ram has. -/
theorem frame_exec {i : Instr} (h : exec i s = .next t) : Frame (writesOf i s ++ [.halted, .fault]) s t := by
  obtain ⟨-, rfl⟩ | ⟨r, -, rfl⟩ := exec_next h
  · exact (frame_effectOf i s).mono (List.subset_append_left ..)
  · exact (frame_raised s r).mono (List.subset_append_right ..)

/-- Settles O18. -/
theorem execWritesOnlyItsParts : Obligations.ExecWritesOnlyItsParts := fun _ _ _ _ h => frame_exec h

/-- RTS passes its check with a pending return address only. -/
theorem sp_pos_of_check_rts (hc : checkOf .rts s = .ok ()) : 0 < s.sp.toNat := by
  refine Nat.pos_of_ne_zero fun h0 => ?_
  have h0 : s.sp = 0 := BitVec.eq_of_toNat_eq h0
  simp [checkOf, faultOf, h0, faultCheck] at hc

/-- CALL passes its check with a free slot only. -/
theorem sp_lt_of_check_call {nnn : Addr} (hc : checkOf (.call nnn) s = .ok ()) : s.sp.toNat < 16 := by
  by_contra h
  simp [checkOf, h] at hc

/-! ## Sums of addresses and of stack counts, none of which wraps -/

theorem toNat_sp_add_one (h : s.sp.toNat < 16) : (s.sp + 1).toNat = s.sp.toNat + 1 :=
  BitVec.toNat_add_of_lt (by simp; omega)

theorem toNat_sp_sub_one (h : 0 < s.sp.toNat) : (s.sp - 1).toNat = s.sp.toNat - 1 :=
  BitVec.toNat_sub_of_le (BitVec.le_def.2 h)

theorem toNat_pc_add_two {a : Word} (h : a.toNat ≤ 4096) : (a + 2).toNat = a.toNat + 2 :=
  BitVec.toNat_add_of_lt (by simp; omega)

theorem toNat_pc_sub_two {a : Word} (h : 2 ≤ a.toNat) : (a - 2).toNat = a.toNat - 2 :=
  BitVec.toNat_sub_of_le (BitVec.le_def.2 h)

@[simp] theorem toNat_zextByte (b : Byte) : (zextByte b).toNat = b.toNat := BitVec.toNat_setWidth_of_le (by decide)

/-- The sum of JUMPI fits 16 bits (40_control_flow.md R107; decision D24). -/
theorem toNat_zextByte_add_zextAddr (b : Byte) (nnn : Addr) : (zextByte b + zextAddr nnn).toNat = b.toNat + nnn.toNat := by
  rw [BitVec.toNat_add_of_lt, toNat_zextByte, toNat_zextAddr]
  rw [toNat_zextByte, toNat_zextAddr]
  omega

/-! ## The invariant, operation by operation -/

/-- The invariant speaks of ram, the call stack, pc and the fault record alone. -/
theorem State.Inv.of_same (hs : s.Inv) (hram : t.ram = s.ram) (hsp : t.sp = s.sp) (hpc : t.pc = s.pc)
    (hstack : t.stack = s.stack) (hhalted : t.halted = s.halted) (hfault : t.fault = s.fault) : t.Inv where
  ram_wf := hram ▸ hs.ram_wf
  sp_le := hsp ▸ hs.sp_le
  pc_le := hpc ▸ hs.pc_le
  slots := by rw [hsp, hstack]; exact hs.slots
  halted_iff := by rw [hhalted, hfault]; exact hs.halted_iff

/-- The host's schedule is no part of the invariant. -/
theorem State.Inv.events (hs : s.Inv) (es : List HostEvent) : State.Inv { s with events := es } :=
  hs.of_same rfl rfl rfl rfl rfl rfl

theorem State.Inv.setPc (hs : s.Inv) {a : Word} (ha : a.toNat ≤ 0x10FE) : (s.setPc a).Inv :=
  { hs with pc_le := ha }

theorem State.Inv.setRam (hs : s.Inv) {m : Memory} (hm : m.wf = true) : (s.setRam m).Inv :=
  { hs with ram_wf := hm }

theorem State.Inv.skipIf (hs : s.Inv) (hpc : s.pc.toNat ≤ 4096) (c : Bool) : (s.skipIf c).Inv := by
  cases c
  · exact hs
  · exact hs.setPc (by rw [toNat_pc_add_two hpc]; omega)

/-- Taking a fault records it and halts. -/
theorem State.Inv.raised (hs : s.Inv) (r : FaultRecord) : State.Inv { s with halted := true, fault := some r } :=
  { hs with halted_iff := rfl }

/-- A pop gives pc a pending return address. -/
theorem State.Inv.popped (hs : s.Inv) (hsp : 0 < s.sp.toNat) :
    State.Inv { s with sp := s.sp - 1, pc := s.stack[s.sp.toNat - 1]?.getD 0 } := by
  have hle := hs.sp_le
  have hsub := toNat_sp_sub_one hsp
  have hslot : s.stack[s.sp.toNat - 1]? = some (s.stack[s.sp.toNat - 1]) := by simp
  have ha := hs.slots _ _ (by omega) hslot
  refine { hs with sp_le := ?_, pc_le := ?_, slots := fun k a hk => hs.slots k a ?_ }
  · show (s.sp - 1).toNat ≤ 16
    omega
  · show (s.stack[s.sp.toNat - 1]?.getD 0).toNat ≤ 0x10FE
    rw [hslot, Option.getD_some]
    omega
  · have hk : k < (s.sp - 1).toNat := hk
    omega

/-- A push makes pc, which stands after the CALL, one more return address. -/
theorem State.Inv.pushed (hs : s.Inv) (hsp : s.sp.toNat < 16) (hpc : 2 ≤ s.pc.toNat ∧ s.pc.toNat ≤ 4096) {a : Word}
    (ha : a.toNat ≤ 0x10FE) : State.Inv { s with stack := s.stack.setIfInBounds s.sp.toNat s.pc, sp := s.sp + 1, pc := a } := by
  have hadd := toNat_sp_add_one hsp
  refine { hs with sp_le := ?_, pc_le := ha, slots := fun k b hk hb => ?_ }
  · show (s.sp + 1).toNat ≤ 16
    omega
  · have hk : k < (s.sp + 1).toNat := hk
    by_cases e : s.sp.toNat = k
    · obtain rfl : s.pc = b := by simpa [e, show k < 16 by omega] using hb
      exact hpc
    · rw [Vector.getElem?_setIfInBounds_ne e] at hb
      exact hs.slots k b (by omega) hb

/-! ## The invariant, instruction by instruction, and of a cycle and a step -/

/-- The writes of an instruction whose check holds keep the invariant; pc stands after the instruction. -/
theorem State.Inv.effectOf {i : Instr} (hs : s.Inv) (hpc : 2 ≤ s.pc.toNat ∧ s.pc.toNat ≤ 4096) (hc : checkOf i s = .ok ()) :
    (effectOf i s).Inv := by
  cases i
  case rts => exact hs.popped (sp_pos_of_check_rts hc)
  case call nnn => exact hs.pushed (sp_lt_of_check_call hc) hpc (by rw [toNat_zextAddr]; omega)
  case jump nnn => exact hs.setPc (by rw [toNat_zextAddr]; omega)
  case jumpi nnn =>
    refine hs.setPc ?_
    rw [toNat_zextByte_add_zextAddr]
    omega
  case ske | skne | skre | skrne | skp | sknp => exact hs.skipIf hpc.2 _
  case keyd x =>
    rw [Machine.effectOf]
    cases lowestKey s.keys with
    | none => exact hs.setPc (by rw [toNat_pc_sub_two hpc.1]; omega)
    | some k => exact hs.of_same rfl rfl rfl rfl rfl rfl
  case bcd | stor => exact hs.setRam (writeFrom_wf _ _ _ _ hs.ram_wf)
  case read x =>
    rw [Machine.effectOf, setRegsFrom_eq]
    exact hs.of_same rfl rfl rfl rfl rfl rfl
  all_goals exact hs.of_same rfl rfl rfl rfl rfl rfl

theorem State.Inv.exec {i : Instr} (hs : s.Inv) (hpc : 2 ≤ s.pc.toNat ∧ s.pc.toNat ≤ 4096) (h : exec i s = .next t) : t.Inv := by
  obtain ⟨hc, rfl⟩ | ⟨r, -, rfl⟩ := exec_next h
  · exact hs.effectOf hpc hc
  · exact hs.raised r

theorem State.Inv.fetched (hs : s.Inv) (w : Word) (hpc : s.pc.toNat ≤ 4094) :
    (s.startCycle.fetched w).Inv ∧ 2 ≤ (s.startCycle.fetched w).pc.toNat ∧ (s.startCycle.fetched w).pc.toNat ≤ 4096 := by
  have h := toNat_pc_add_two (a := s.pc) (by omega)
  rw [fetched_pc, startCycle_pc, h]
  exact ⟨{ hs with pc_le := by rw [fetched_pc, startCycle_pc, h]; omega }, by omega, by omega⟩

theorem State.Inv.cycle (hs : s.Inv) (h : cycle s = .next t) : t.Inv := by
  obtain ⟨-, hc⟩ | ⟨w, i, hw, -, hc⟩ | ⟨w, e, hw, -, hc⟩ := cycle_cases s <;> rw [hc] at h
  · cases h
    exact State.Inv.raised (s := s.startCycle) (hs.of_same rfl rfl rfl rfl rfl rfl) _
  · obtain ⟨hf, hpc⟩ := hs.fetched w (fetchWord_range s hw)
    exact hf.exec hpc h
  · cases h
    exact (hs.fetched w (fetchWord_range s hw)).1.raised _

theorem State.Inv.load {bs : List Byte} (hs : s.Inv) (h : s.load bs = .next t) : t.Inv := by
  obtain ⟨-, hl⟩ | ⟨-, hl⟩ := load_cases s bs <;> rw [hl] at h <;> cases h
  · exact (hs.setRam (writeFrom_wf _ .fault 0x200 bs hs.ram_wf)).of_same rfl rfl rfl rfl rfl rfl
  · exact hs.raised _

theorem State.isLaunch.inv (hs : s.isLaunch) : s.Inv where
  ram_wf := hs.ram_wf
  sp_le := by simp [hs.sp]
  pc_le := by simp [hs.pc]
  slots k a hk := by simp [hs.sp] at hk
  halted_iff := by simp [hs.halted, hs.fault]

theorem reset_isLaunch : State.reset.isLaunch := ⟨rfl, rfl, rfl, rfl, rfl, rfl⟩

/-- Settles O16. -/
theorem launchStatesMeetTheInvariant : Obligations.LaunchStatesMeetTheInvariant := ⟨reset_isLaunch.inv, fun _ hs => hs.inv⟩

theorem State.Inv.runOne {n : Nat} {rest : List HostEvent} (hs : s.Inv) (h : s.runOne n rest = .next t) : t.Inv := by
  obtain ⟨u, hu, ht⟩ := runOne_next s h
  have hinv : u.Inv := (hs.events _).cycle hu
  rw [ht]
  split
  · exact hinv.events rest
  · exact hinv

/-- Settles O17: each of the things a step can be keeps the invariant. -/
theorem stepKeepsTheInvariant : Obligations.StepKeepsTheInvariant := by
  intro s t hs h
  obtain ⟨rest, -, rfl⟩ | ⟨-, ⟨-, h⟩ | ⟨rest, -, rfl⟩ | ⟨k, rest, -, rfl⟩ | ⟨bs, rest, -, -, h⟩ | ⟨rest, -, rfl⟩ |
    ⟨n, rest, -, h⟩⟩ := step_next s h
  · exact reset_isLaunch.inv.of_same rfl rfl rfl rfl rfl rfl
  · exact hs.cycle h
  · exact hs.of_same rfl rfl rfl rfl rfl rfl
  · exact hs.of_same rfl rfl rfl rfl rfl rfl
  · exact (hs.events rest).load h
  · exact hs.events rest
  · exact hs.runOne h

end Sys2Proof.Machine
end

section
/-! SUPPORT. What the meanings do not depend on: the sound timer, ir and the host's fields, the stale slots of the call stack, and,
outside its corner, an open parameter. The check of an instruction reads none of these; the writes are compared case by case. -/

namespace Sys2Proof.Machine

/-- READ's loop commutes with an update that commutes with every write of a register. -/
theorem setRegsFrom_comm {f : State → State} (hf : ∀ s x b, (f s).setReg x b = f (s.setReg x b)) (s : State) (k : Nat)
    (bs : List Byte) : (f s).setRegsFrom k bs = f (s.setRegsFrom k bs) := by
  induction bs generalizing s k with
  | nil => rfl
  | cons b bs ih => rw [State.setRegsFrom, hf, ih, State.setRegsFrom]

/-! ## The sound timer (10_state.md R26) -/

theorem effectOf_st {i : Instr} (s : State) (b : Byte) (hi : ∀ x, i ≠ .loads x) :
    effectOf i { s with st := b } = { effectOf i s with st := b } := by
  cases i
  case loads x => exact absurd rfl (hi x)
  case ske | skne | skre | skrne | skp | sknp => simp only [effectOf, skipIf_eq]; rfl
  case keyd x =>
    simp only [effectOf]
    cases lowestKey s.keys <;> rfl
  case read x => exact setRegsFrom_comm (f := fun s => { s with st := b }) (fun _ _ _ => rfl) s 0 _
  all_goals rfl

/-- Settles O19: LOADS overwrites st, the other writes leave it, and a recorded fault leaves it too. -/
theorem noInstructionReadsTheSoundTimer : Obligations.NoInstructionReadsTheSoundTimer := by
  intro i s t b h
  have hcheck : checkOf i { s with st := b } = checkOf i s := by cases i <;> rfl
  rw [exec_eq, hcheck]
  obtain ⟨hc, rfl⟩ | ⟨r, hc, rfl⟩ := exec_next h <;> rw [hc]
  · refine ⟨_, rfl, ?_⟩
    by_cases hi : ∃ x, i = .loads x
    · obtain ⟨x, rfl⟩ := hi
      exact ⟨rfl, fun hne => absurd rfl (hne x)⟩
    · rw [effectOf_st s b fun x hx => hi ⟨x, hx⟩]
      exact ⟨rfl, fun _ => rfl⟩
  · exact ⟨_, rfl, rfl, fun _ => rfl⟩

/-! ## ir and the host's fields (10_state.md R28) -/

theorem effectOf_host (i : Instr) (s : State) (w : Word) (es : List HostEvent) (l : Bool) :
    effectOf i { s with ir := w, events := es, loadOpen := l } = { effectOf i s with ir := w, events := es, loadOpen := l } := by
  cases i
  case ske | skne | skre | skrne | skp | sknp => simp only [effectOf, skipIf_eq]; rfl
  case keyd x =>
    simp only [effectOf]
    cases lowestKey s.keys <;> rfl
  case read x =>
    exact setRegsFrom_comm (f := fun s => { s with ir := w, events := es, loadOpen := l }) (fun _ _ _ => rfl) s 0 _
  all_goals rfl

/-- Settles O20. -/
theorem noInstructionReadsIrAgain : Obligations.NoInstructionReadsIrAgain := by
  intro i s t w es l h
  have hcheck : checkOf i { s with ir := w, events := es, loadOpen := l } = checkOf i s := by cases i <;> rfl
  rw [exec_eq, hcheck]
  obtain ⟨hc, rfl⟩ | ⟨r, hc, rfl⟩ := exec_next h <;> rw [hc]
  · rw [effectOf_host]
    rfl
  · rfl

/-! ## Stale slots (10_state.md R29) -/

/-- The two machines differ in slots of the call stack at index sp and above alone. -/
structure SameButStale (s u : State) : Prop where
  rest : { u with stack := s.stack } = s
  slots : ∀ k < s.sp.toNat, u.stack[k]? = s.stack[k]?

/-- RTS reads the slot below sp, CALL writes the slot at sp, and no other write looks at the stack. -/
theorem SameButStale.effectOf {i : Instr} {s : State} {stack' : Vector Word 16}
    (h : ∀ k < s.sp.toNat, stack'[k]? = s.stack[k]?) (hc : checkOf i s = .ok ()) :
    SameButStale (effectOf i s) (effectOf i { s with stack := stack' }) := by
  cases i
  case rts =>
    have hpos := sp_pos_of_check_rts hc
    refine ⟨?_, fun k hk => h k ?_⟩
    · simp only [Machine.effectOf, h _ (Nat.sub_lt hpos Nat.one_pos)]
    · have hk : k < (s.sp - 1).toNat := hk
      rw [toNat_sp_sub_one hpos] at hk
      omega
  case call nnn =>
    refine ⟨rfl, fun k hk => ?_⟩
    have hk : k < (s.sp + 1).toNat := hk
    have hlt := sp_lt_of_check_call hc
    rw [toNat_sp_add_one hlt] at hk
    by_cases e : s.sp.toNat = k
    · simp [Machine.effectOf, e, e ▸ hlt]
    · simp only [Machine.effectOf, Vector.getElem?_setIfInBounds_ne e]
      exact h k (by omega)
  case ske | skne | skre | skrne | skp | sknp =>
    simp only [Machine.effectOf, skipIf_eq]
    exact ⟨rfl, h⟩
  case keyd x =>
    simp only [Machine.effectOf]
    cases lowestKey s.keys <;> exact ⟨rfl, h⟩
  case read x =>
    rw [Machine.effectOf, Machine.effectOf, setRegsFrom_comm (f := fun s => { s with stack := stack' }) (fun _ _ _ => rfl) s,
      setRegsFrom_eq]
    exact ⟨rfl, h⟩
  all_goals exact ⟨rfl, h⟩

/-- Settles O21. -/
theorem staleStackSlotsAreNeverRead : Obligations.StaleStackSlotsAreNeverRead := by
  intro i s t stack' _ hslots h
  have hcheck : checkOf i { s with stack := stack' } = checkOf i s := by cases i <;> rfl
  rw [exec_eq, hcheck]
  obtain ⟨hc, rfl⟩ | ⟨r, hc, rfl⟩ := exec_next h <;> rw [hc]
  · have hsame := SameButStale.effectOf hslots hc
    exact ⟨_, rfl, hsame.rest, hsame.slots⟩
  · exact ⟨_, rfl, rfl, hslots⟩

/-! ## Open parameters (93_implementation_defined.md Part 2) -/

/-- Writes of two registers in either order. -/
theorem setReg_comm (s : State) {x y : Reg} (a b : Byte) (h : x ≠ y) :
    (s.setReg x a).setReg y b = (s.setReg y b).setReg x a := by
  have hxy : x.toNat ≠ y.toNat := fun e => h (BitVec.eq_of_toNat_eq e)
  simp only [State.setReg, Vector.set_comm _ _ hxy]

theorem shiftReg_of_ne_vF (o : ShiftVfOrder) (s : State) {x : Reg} (bit : Byte → Bool) (sh : Byte → Byte) (hx : x ≠ 0xF) :
    s.shiftReg o x bit sh = .ok ((s.setReg 0xF (flagByte (bit (s.reg x)))).setReg x (sh (s.reg x))) := by
  cases o
  case latched => rfl
  case sequential => simp only [State.shiftReg, reg_setReg_other s _ hx]
  case flagLast => simp only [State.shiftReg, setReg_comm s _ _ hx]
  case refuse => simp only [State.shiftReg, if_neg hx]

theorem toNat_indexSum (i : Word) (b : Byte) : (i + zextByte b).toNat = (i.toNat + b.toNat) % 65536 := by
  rw [BitVec.toNat_add, toNat_zextByte]

/-- No parameter changes where an element of a range that exists stands. -/
theorem readFrom_of_inRange (d : DataOor) (m : Memory) {a n : Nat} (h : n = 0 ∨ a + n ≤ 4096) :
    m.readFrom d a n = m.readFrom dataOor a n := by
  induction n generalizing a with
  | zero => rfl
  | succ n ih =>
    have ha : a < 4096 := by omega
    rw [Memory.readFrom, Memory.readFrom, elementPlace_lt d ha, elementPlace_lt dataOor ha, ih (by omega)]

theorem writeFrom_of_inRange (d : DataOor) (m : Memory) {a : Nat} {bs : List Byte} (h : bs.length = 0 ∨ a + bs.length ≤ 4096) :
    m.writeFrom d a bs = m.writeFrom dataOor a bs := by
  induction bs generalizing m a with
  | nil => rfl
  | cons b bs ih =>
    simp only [List.length_cons] at h
    have ha : a < 4096 := by omega
    rw [Memory.writeFrom, Memory.writeFrom, elementPlace_lt d ha, elementPlace_lt dataOor ha, ih _ (by omega)]

/-- Settles O22, parameter by parameter. -/
theorem openParametersDifferOnlyInTheirCorner : Obligations.OpenParametersDifferOnlyInTheirCorner := by
  refine ⟨?shift, ?key, ?index, ?read, ?write⟩
  case shift =>
    intro o s x bit sh hx
    exact ⟨_, shiftReg_of_ne_vF o s bit sh hx, shiftReg_of_ne_vF shiftVfOrder s bit sh hx⟩
  case key =>
    intro o keys k hk
    simp [keyPressed, Nat.not_lt.2 hk]
  case index =>
    intro o i b hsum
    refine ⟨i + zextByte b, ?_, by rw [toNat_indexSum]; omega⟩
    cases o
    · rfl
    · exact if_neg (by omega)
  case read =>
    intro d m a n h
    have hin := (inRange_iff a n).2 h
    rw [memRead, memRead, if_pos hin, if_pos hin, readFrom_of_inRange d m h]
  case write =>
    intro d m a bs h
    have hin := (inRange_iff a bs.length).2 h
    rw [memWrite, memWrite, if_pos hin, if_pos hin, writeFrom_of_inRange d m h]

end Sys2Proof.Machine
end

section
/-! SUPPORT. The instructions of 40_control_flow.md and 41_arithmetic_logic.md one by one: each completes with its writes
(`exec_of_check`) inside its frame (`frame_effectOf`), so what is left to say is the value it writes. -/

namespace Sys2Proof.Machine

variable {s : State}

/-! ## Control flow -/

theorem exec_rts_of_pending (hpos : 0 < s.sp.toNat) (hs : s.sp.toNat ≤ 16) : exec .rts s = .next (effectOf .rts s) := by
  have h0 : s.sp ≠ 0 := fun h => by simp [h] at hpos
  exact exec_of_noFault hs (if_neg h0)

theorem exec_call_of_free (nnn : Addr) (hs : s.sp.toNat < 16) : exec (.call nnn) s = .next (effectOf (.call nnn) s) :=
  exec_of_check s (if_pos hs)

/-- The slot that a CALL writes. -/
theorem effectOf_call_slot (nnn : Addr) (hs : s.sp.toNat < 16) : (effectOf (.call nnn) s).stack[s.sp.toNat]? = some s.pc := by
  simp [effectOf, hs]

/-- Settles O23. -/
theorem rtsPopsTheReturnAddress : Obligations.RtsPopsTheReturnAddress := by
  refine ⟨fun s h0 => exec_of_fault (by simp [h0]) (if_pos h0), fun s hpos hs => ?_⟩
  have hslot : s.stack[s.sp.toNat - 1]? = some s.stack[s.sp.toNat - 1] := by simp
  refine ⟨_, _, exec_rts_of_pending hpos hs, toNat_sp_sub_one hpos, hslot, ?_, frame_effectOf .rts s⟩
  rw [effectOf, hslot, Option.getD_some]

/-- Settles O24. -/
theorem callPushesTheNextAddress : Obligations.CallPushesTheNextAddress := by
  refine ⟨fun nnn s h16 => exec_of_fault (by simp [h16]) (if_pos h16), fun nnn s hs => ?_⟩
  exact ⟨_, exec_call_of_free nnn hs, effectOf_call_slot nnn hs, toNat_sp_add_one hs, toNat_zextAddr nnn,
    frame_effectOf (.call nnn) s⟩

/-- Settles O25: the RTS pops the slot that the CALL wrote. -/
theorem callThenRtsResumesAfterTheCall : Obligations.CallThenRtsResumesAfterTheCall := by
  intro nnn s hs
  refine ⟨_, exec_call_of_free nnn hs, fun u hsp hstack => ?_⟩
  have hsp : u.sp = s.sp + 1 := hsp
  have hcount : u.sp.toNat = s.sp.toNat + 1 := by rw [hsp, toNat_sp_add_one hs]
  refine ⟨_, exec_rts_of_pending (by omega) (by omega), ?_, ?_⟩
  · rw [effectOf, hcount, Nat.add_sub_cancel, hstack, effectOf_call_slot nnn hs, Option.getD_some]
  · rw [effectOf, hsp, BitVec.add_sub_cancel]

/-- Settles O27: each skip is one write of pc. -/
theorem skipsMovePcByTwo : Obligations.SkipsMovePcByTwo := by
  refine ⟨?ske, ?skne, ?skre, ?skrne⟩
  case ske => exact fun x nn s => ⟨_, exec_of_check s rfl, by simp [effectOf, skipIf_eq], frame_effectOf (.ske x nn) s⟩
  case skne => exact fun x nn s => ⟨_, exec_of_check s rfl, by simp [effectOf, skipIf_eq], frame_effectOf (.skne x nn) s⟩
  case skre => exact fun x y s => ⟨_, exec_of_check s rfl, by simp [effectOf, skipIf_eq], frame_effectOf (.skre x y) s⟩
  case skrne => exact fun x y s => ⟨_, exec_of_check s rfl, by simp [effectOf, skipIf_eq], frame_effectOf (.skrne x y) s⟩

/-- Settles O28. -/
theorem jumpiAddsV0WithoutMask : Obligations.JumpiAddsV0WithoutMask := fun nnn s =>
  ⟨_, exec_of_check s rfl, toNat_zextByte_add_zextAddr (s.reg 0) nnn, frame_effectOf (.jumpi nnn) s⟩

/-! ## Logic and the random source -/

/-- Settles O31. -/
theorem moveAndLogicWriteOneRegister : Obligations.MoveAndLogicWriteOneRegister := by
  refine ⟨?move, ?or, ?and, ?xor⟩
  case move => exact fun x y s => ⟨_, exec_of_check s rfl, reg_setReg_same s x _, frame_effectOf (.move x y) s⟩
  case or => exact fun x y s => ⟨_, exec_of_check s rfl, by simp [effectOf], frame_effectOf (.or x y) s⟩
  case and => exact fun x y s => ⟨_, exec_of_check s rfl, by simp [effectOf], frame_effectOf (.and x y) s⟩
  case xor => exact fun x y s => ⟨_, exec_of_check s rfl, by simp [effectOf], frame_effectOf (.xor x y) s⟩

/-- Settles O34: the mask is an and of the free byte, whatever it is. -/
theorem randMasksOneDrawnByte : Obligations.RandMasksOneDrawnByte := fun x nn s =>
  ⟨_, exec_of_check s rfl, rfl, by simp [effectOf], frame_effectOf (.rand x nn) s⟩

/-! ## Results and flags -/

theorem flagByte_decide (p : Prop) [Decidable p] : flagByte (decide p) = if p then 1 else 0 := by
  by_cases h : p <;> simp [flagByte, h]

theorem toNat_flagByte (f : Bool) : (flagByte f).toNat = f.toNat := by
  cases f <;> rfl

/-- The stored difference of SUB and SUBN, a the minuend. -/
theorem toNat_difference (a b : Byte) : (a - b).toNat = (a.toNat + 256 - b.toNat) % 256 := by
  rw [BitVec.toNat_sub]
  omega

/-- Settles O32: the flag is written last, so it survives in vF, and every other destination holds the result. -/
theorem addrSubSubnResultAndFlag : Obligations.AddrSubSubnResultAndFlag := by
  refine ⟨?addr, ?sub, ?subn⟩
  case addr =>
    refine fun x y s => ⟨_, exec_of_check s rfl, ?_, fun hx => ?_, frame_effectOf (.addr x y) s⟩
    · rw [effectOf, resultThenFlag_vF, carryOut, flagByte_decide]
    · rw [effectOf, resultThenFlag_dest s _ _ hx, BitVec.toNat_add]
  case sub =>
    refine fun x y s => ⟨_, exec_of_check s rfl, ?_, fun hx => ?_, frame_effectOf (.sub x y) s⟩
    · rw [effectOf, resultThenFlag_vF, noBorrow, flagByte_decide]
    · rw [effectOf, resultThenFlag_dest s _ _ hx, toNat_difference]
  case subn =>
    refine fun x y s => ⟨_, exec_of_check s rfl, ?_, fun hx => ?_, frame_effectOf (.subn x y) s⟩
    · rw [effectOf, resultThenFlag_vF, noBorrow, flagByte_decide]
    · rw [effectOf, resultThenFlag_dest s _ _ hx, toNat_difference]

theorem toNat_lowBit (a : Byte) : (lowBit a).toNat = a.toNat % 2 := by
  rw [lowBit, BitVec.getLsbD, Nat.toNat_testBit, Nat.pow_zero, Nat.div_one]

theorem toNat_highBit (a : Byte) : (highBit a).toNat = a.toNat / 128 := by
  rw [highBit, BitVec.getLsbD, Nat.toNat_testBit]
  omega

/-- Settles O33: the flag is written first, so the shifted value survives in vF. -/
theorem shiftsKeepTheBitThatLeaves : Obligations.ShiftsKeepTheBitThatLeaves := by
  refine ⟨?shr, ?shl⟩
  case shr =>
    refine fun x y s => ⟨_, exec_of_check s rfl, ?_, fun hx => ?_, frame_effectOf (.shr x y) s⟩
    · rw [effectOf, reg_setReg_same, BitVec.toNat_ushiftRight, Nat.shiftRight_eq_div_pow, Nat.pow_one]
    · rw [effectOf, flagThenResult_vF s _ _ hx, toNat_flagByte, toNat_lowBit]
  case shl =>
    refine fun x y s => ⟨_, exec_of_check s rfl, ?_, fun hx => ?_, frame_effectOf (.shl x y) s⟩
    · rw [effectOf, reg_setReg_same, BitVec.toNat_shiftLeft, Nat.shiftLeft_eq, Nat.mul_comm, Nat.pow_one]
    · rw [effectOf, flagThenResult_vF s _ _ hx, toNat_flagByte, toNat_highBit]

end Sys2Proof.Machine
end

section
/-! SUPPORT. The instructions of 42_index_memory.md one by one: the index sums, and what BCD, STOR and READ leave in ram and in the
registers, from one rule for a read of a written range. -/

namespace Sys2Proof.Machine

variable {s : State}

/-- Settles O37. -/
theorem addiAndLdsprComputeTheIndex : Obligations.AddiAndLdsprComputeTheIndex := by
  refine ⟨fun x s => ⟨_, exec_of_check s rfl, toNat_indexSum s.i (s.reg x), frame_effectOf (.addi x) s⟩,
    fun x s => ⟨_, exec_of_check s rfl, ?_, frame_effectOf (.ldspr x) s⟩⟩
  have h : (5 * zextByte (s.reg x)).toNat = 5 * (s.reg x).toNat := by
    rw [BitVec.toNat_mul, toNat_zextByte]
    simp
    omega
  exact h

/-! ## Ranges of ram -/

theorem addressFaultIn_of_reaches {n : Nat} (h : s.reaches n) : addressFaultIn s n = none := by
  rw [State.reaches] at h
  exact if_neg (by omega)

/-- A byte of a written range reads as it was written. -/
theorem read_writeFrom_inside {m : Memory} {a k : Nat} {b : Byte} {bs : List Byte} (hm : m.wf = true)
    (hr : bs.length = 0 ∨ a + bs.length ≤ 4096) (hb : bs[k]? = some b) : (m.writeFrom .fault a bs).read (a + k) = b := by
  have hk := (List.getElem?_eq_some_iff.1 hb).1
  rw [read_writeRange m .fault a bs hm (by omega), if_pos (Nat.le_add_right a k), Nat.add_sub_cancel_left,
    List.getD_eq_getElem?_getD, hb, Option.getD_some]

theorem exec_bcd_of_reaches (x : Reg) (h : s.reaches 3) : exec (.bcd x) s = .next (effectOf (.bcd x) s) :=
  exec_of_check s (congrArg faultCheck (addressFaultIn_of_reaches h))

theorem exec_stor_of_reaches {x : Reg} (h : s.reaches x.toNat) : exec (.stor x) s = .next (effectOf (.stor x) s) :=
  exec_of_check s (congrArg faultCheck (addressFaultIn_of_reaches h))

theorem exec_read_of_reaches {x : Reg} (h : s.reaches (x.toNat + 1)) : exec (.read x) s = .next (effectOf (.read x) s) :=
  exec_of_check s (congrArg faultCheck (addressFaultIn_of_reaches h))

/-! ## What BCD, STOR and READ leave -/

theorem effectOf_bcd_byte (x : Reg) (hm : s.ram.wf = true) (h : s.reaches 3) {k : Nat} {b : Byte}
    (hb : (bcdDigits (s.reg x))[k]? = some b) : (effectOf (.bcd x) s).ram.read (s.i.toNat + k) = b :=
  read_writeFrom_inside hm h hb

theorem effectOf_stor_byte {x : Reg} (hm : s.ram.wf = true) (h : s.reaches x.toNat) (k : Reg) (hk : k.toNat < x.toNat) :
    (effectOf (.stor x) s).ram.read (s.i.toNat + k.toNat) = s.reg k := by
  refine read_writeFrom_inside hm (by rwa [length_regsBelow]) ?_
  rw [getElem?_regsBelow s x k.toNat hk, BitVec.ofNat_toNat, BitVec.setWidth_eq]

theorem effectOf_read_reg {x : Reg} (h : s.reaches (x.toNat + 1)) (k : Reg) (hk : k.toNat ≤ x.toNat) :
    (effectOf (.read x) s).reg k = s.ram.read (s.i.toNat + k.toNat) := by
  have hlen : (s.ram.readFrom .fault s.i.toNat (x.toNat + 1)).length = x.toNat + 1 := length_readFrom ..
  have hr : s.i.toNat + (x.toNat + 1) ≤ 4096 := h.resolve_left (by omega)
  rw [effectOf, setRegsFrom_reg s 0 _ k (by omega), if_pos (Nat.zero_le _), List.getD_eq_getElem?_getD, Nat.sub_zero,
    getElem?_readFrom _ _ _ _ _ hr (by omega), Option.getD_some]

/-- Settles O38: quotients and remainders by 100 and 10 spell a byte. -/
theorem bcdStoresThreeDigits : Obligations.BcdStoresThreeDigits := by
  intro x s hm h
  refine ⟨_, _, _, _, exec_bcd_of_reaches x h, effectOf_bcd_byte x hm h (k := 0) rfl, effectOf_bcd_byte x hm h (k := 1) rfl,
    effectOf_bcd_byte x hm h (k := 2) rfl, ?_, ?_, ?_, ?_, frame_effectOf (.bcd x) s⟩
  all_goals simp only [BitVec.toNat_udiv, BitVec.toNat_umod, BitVec.reduceToNat]; omega

/-- Settles O39. -/
theorem storStoresRegistersBelowX : Obligations.StorStoresRegistersBelowX := fun x s hm h =>
  ⟨_, exec_stor_of_reaches h, effectOf_stor_byte hm h, frame_effectOf (.stor x) s⟩

/-- Settles O40. -/
theorem readLoadsRegistersUpToX : Obligations.ReadLoadsRegistersUpToX := fun x s h =>
  ⟨_, exec_read_of_reaches h, effectOf_read_reg h, frame_effectOf (.read x) s⟩

/-- Settles O41: READ takes each register from the byte that STOR put it in. -/
theorem storThenReadRestoresRegisters : Obligations.StorThenReadRestoresRegisters := by
  intro k s hm hk h
  have hsucc : (k + 1).toNat = k.toNat + 1 := BitVec.toNat_add_of_lt (by simp; omega)
  have hstor : s.reaches (k + 1).toNat := by rwa [hsucc]
  refine ⟨_, exec_stor_of_reaches hstor, fun u hi hram => ?_⟩
  have hi : u.i = s.i := hi
  have hread : u.reaches (k.toNat + 1) := by rwa [State.reaches, hi]
  refine ⟨_, exec_read_of_reaches hread, fun j hj => ?_⟩
  rw [effectOf_read_reg hread j hj, hram, hi, effectOf_stor_byte hm hstor j (by omega)]

/-- The word of two bytes, fetched at their address a. -/
theorem fetchWord_bytes {t : State} {pc : Word} {a : Nat} {b0 b1 : Byte} (hpc : pc.toNat = a) (ha : a ≤ 4094)
    (h0 : t.ram.read a = b0) (h1 : t.ram.read (a + 1) = b1) :
    ∃ w, { t with pc := pc }.fetchWord? = some w ∧ w.toNat = 256 * b0.toNat + b1.toNat := by
  subst hpc h0 h1
  exact ⟨_, fetchWord_some { t with pc := pc } ha, toNat_wordOfBytes ..⟩

/-- Settles O42: the fetch reads the bytes that the store left. -/
theorem storedBytesAreFetched : Obligations.StoredBytesAreFetched := by
  refine ⟨?stor, ?bcd⟩
  case stor =>
    intro x k s t pc hm h hk hpc ht
    rw [exec_stor_of_reaches h] at ht
    cases ht
    have hsucc : (k + 1).toNat = k.toNat + 1 := BitVec.toNat_add_of_lt (by simp; omega)
    have hr : s.i.toNat + x.toNat ≤ 4096 := h.resolve_left (by omega)
    refine fetchWord_bytes hpc (by omega) (effectOf_stor_byte hm h k (by omega)) ?_
    rw [Nat.add_assoc, ← hsucc, effectOf_stor_byte hm h (k + 1) (by omega)]
  case bcd =>
    intro x s t pc hm h ht
    rw [exec_bcd_of_reaches x h] at ht
    cases ht
    have hr : s.i.toNat + 3 ≤ 4096 := h.resolve_left (by omega)
    have hundreds : (effectOf (.bcd x) s).ram.read s.i.toNat = s.reg x / 100 := effectOf_bcd_byte x hm h (k := 0) rfl
    have htens : (effectOf (.bcd x) s).ram.read (s.i.toNat + 1) = s.reg x / 10 % 10 := effectOf_bcd_byte x hm h (k := 1) rfl
    have hunits : (effectOf (.bcd x) s).ram.read (s.i.toNat + 2) = s.reg x % 10 := effectOf_bcd_byte x hm h (k := 2) rfl
    refine ⟨fun hpc => ?_, fun hpc => ?_⟩
    · obtain ⟨w, hw, hval⟩ := fetchWord_bytes hpc (by omega) hundreds htens
      exact ⟨w, hw, hval⟩
    · obtain ⟨w, hw, hval⟩ := fetchWord_bytes hpc (by omega) htens hunits
      exact ⟨w, hw, hval⟩

end Sys2Proof.Machine
end

section
/-! SUPPORT. The instructions of 43_display.md and 44_keys_timers.md one by one: which cells a sprite falls on, the lowest pressed key,
and the moves of the timers. -/

namespace Sys2Proof.Machine

variable {s : State}

/-! ## Display -/

/-- Settles O43. -/
theorem clrClearsTheFramebuffer : Obligations.ClrClearsTheFramebuffer := fun s =>
  ⟨_, exec_of_check s rfl, cell_clear, frame_effectOf .clr s⟩

/-- The sprite column and row that fall on a cell, and the bit there. -/
theorem spriteCovers_iff (s : State) (x y : Reg) (n k : Nat) : spriteCovers s x y n k = true ↔
    spriteOffset 64 (s.spriteColumn x) (k % 64) < 8 ∧ spriteOffset 32 (s.spriteRow y) (k / 64) < n ∧
      (s.ram.read (s.i.toNat + spriteOffset 32 (s.spriteRow y) (k / 64))).getLsbD
        (7 - spriteOffset 64 (s.spriteColumn x) (k % 64)) = true := by
  simp only [spriteCovers, spriteBit, Bool.and_eq_true, decide_eq_true_iff]
  rfl

/-- The screen position of a sprite row or column says which one it is (43_display.md R141 (f)), and back. -/
theorem spriteOffset_of_position {size start k : Nat} (hstart : start < size) (hk : k < size) :
    spriteOffset size start ((start + k) % size) = k := by
  rw [spriteOffset]
  by_cases h : start + k < size
  · rw [Nat.mod_eq_of_lt h, show start + k + size - start = k + size by omega, Nat.add_mod_right, Nat.mod_eq_of_lt hk]
  · rw [Nat.mod_eq_sub_mod (Nat.le_of_not_lt h), Nat.mod_eq_of_lt (by omega : start + k - size < size),
      show start + k - size + size - start = k by omega, Nat.mod_eq_of_lt hk]

theorem position_of_spriteOffset {size start p : Nat} (hstart : start < size) (hp : p < size) :
    (start + spriteOffset size start p) % size = p := by
  rw [spriteOffset, Nat.add_mod_mod, show start + (p + size - start) = p + size by omega, Nat.add_mod_right, Nat.mod_eq_of_lt hp]

/-- The cells that the sprite of DRAW touches, counted from the sprite, are those that it covers, counted from the screen. -/
theorem mem_spriteCells_iff_covers {x y : Reg} {n k : Nat} (h : s.reaches n) (hn : n ≤ 32) (hk : k < 2048) :
    k ∈ spriteCells (s.spriteColumn x) (s.spriteRow y) 0 (s.ram.readFrom .fault s.i.toNat n) ↔ spriteCovers s x y n k = true := by
  have hcol : s.spriteColumn x < 64 := Nat.mod_lt _ (by omega)
  have hrow : s.spriteRow y < 32 := Nat.mod_lt _ (by omega)
  have hbyte : ∀ j < n, (s.ram.readFrom .fault s.i.toNat n)[j]? = some (s.ram.read (s.i.toNat + j)) := fun j hj =>
    getElem?_readFrom _ _ _ _ _ (h.resolve_left (by omega)) hj
  rw [mem_spriteCells, spriteCovers_iff]
  constructor
  · rintro ⟨j, b, hj, c, hc, hbit, rfl⟩
    have hjn : j < n := by
      have hlt := (List.getElem?_eq_some_iff.1 hj).1
      rwa [length_readFrom] at hlt
    obtain rfl : s.ram.read (s.i.toNat + j) = b := Option.some.inj ((hbyte j hjn).symm.trans hj)
    have hcolumn : (64 * ((s.spriteRow y + 0 + j) % 32) + (s.spriteColumn x + c) % 64) % 64 = (s.spriteColumn x + c) % 64 := by omega
    have hline : (64 * ((s.spriteRow y + 0 + j) % 32) + (s.spriteColumn x + c) % 64) / 64 = (s.spriteRow y + j) % 32 := by omega
    rw [hcolumn, hline, spriteOffset_of_position hcol (by omega), spriteOffset_of_position hrow (by omega)]
    exact ⟨hc, hjn, hbit⟩
  · rintro ⟨hc, hr, hbit⟩
    refine ⟨_, _, hbyte _ hr, _, hc, hbit, ?_⟩
    rw [Nat.add_zero, position_of_spriteOffset hrow (by omega), position_of_spriteOffset hcol (by omega)]
    omega

/-- Settles O44: compositing inverts the touched cells, and these are the covered ones. -/
theorem drawInvertsExactlyTheSpriteCells : Obligations.DrawInvertsExactlyTheSpriteCells := by
  intro x y n s h
  have hlen : (s.ram.readFrom .fault s.i.toNat n.toNat).length ≤ 32 := by
    rw [length_readFrom]
    omega
  have hflag := polarity_of_eq_flagByte (drawSprite_vF s x y _) (composite_collision_iff hlen)
  refine ⟨_, exec_draw_of_reaches x y h, fun k hk => ?_, hflag.1, hflag.2, frame_effectOf (.draw x y n) s⟩
  rw [drawSprite_video, (composite_spec _ _ _ _ hlen).1 k]
  by_cases hc : spriteCovers s x y n.toNat k = true
  · rw [if_pos ((mem_spriteCells_iff_covers h (by omega) hk).2 hc), hc, Bool.xor_true]
  · rw [if_neg (mt (mem_spriteCells_iff_covers h (by omega) hk).1 hc), Bool.eq_false_of_not_eq_true hc, Bool.xor_false]

/-! ## Keys -/

theorem lowestKey_eq_some {keys : BitVec 16} {k : Nat} (hk : k < 16) (hp : keys.getLsbD k = true)
    (hlow : ∀ j < k, keys.getLsbD j = false) : lowestKey keys = some k := by
  simp only [lowestKey, List.find?_range_eq_some]
  exact ⟨hp, List.mem_range.2 hk, fun j hj => by simp [hlow j hj]⟩

theorem lowestKey_zero : lowestKey 0 = none := rfl

/-- Settles O46. -/
theorem keySkipsTestTheNamedKey : Obligations.KeySkipsTestTheNamedKey := by
  intro x s hx
  have hcheck : faultCheck (keyFaultIn s x) = .ok () := congrArg faultCheck (if_neg (Nat.not_lt.2 hx))
  refine ⟨⟨_, exec_of_check (i := .skp x) s hcheck, by simp [effectOf, skipIf_eq], frame_effectOf (.skp x) s⟩,
    ⟨_, exec_of_check (i := .sknp x) s hcheck, ?_, frame_effectOf (.sknp x) s⟩⟩
  cases hkey : s.keys.getLsbD (s.reg x).toNat <;> simp [effectOf, skipIf_eq, hkey]

/-- KEYD with a key pressed. -/
theorem exec_keyd_pressed (x : Reg) {k : Nat} (h : lowestKey s.keys = some k) :
    exec (.keyd x) s = .next (s.setReg x (BitVec.ofNat 8 k)) := by
  simp only [exec, execKeyd, h]

/-- KEYD with none pressed: pc goes back to the KEYD. -/
theorem exec_keyd_none (x : Reg) (h : s.keys = 0) : exec (.keyd x) s = .next (s.setPc (s.pc - 2)) := by
  simp only [exec, execKeyd, h, lowestKey_zero]

/-- Settles O47. -/
theorem keydTakesTheLowestKeyOrRetries : Obligations.KeydTakesTheLowestKeyOrRetries := by
  refine ⟨fun x s k hk hp hlow => ?_, fun x s h => ⟨_, exec_keyd_none x h, rfl, frame_setPc s _⟩⟩
  refine ⟨_, exec_keyd_pressed x (lowestKey_eq_some hk hp hlow), ?_, frame_setReg s x _⟩
  rw [reg_setReg_same, BitVec.toNat_ofNat]
  omega

/-! ## Timers -/

/-- Settles O49. -/
theorem timerMoves : Obligations.TimerMoves :=
  ⟨fun x s => ⟨_, exec_of_check s rfl, reg_setReg_same s x _, frame_effectOf (.moved x) s⟩,
    fun x s => ⟨_, exec_of_check s rfl, rfl, frame_effectOf (.loadd x) s⟩,
    fun x s => ⟨_, exec_of_check s rfl, rfl, frame_effectOf (.loads x) s⟩⟩

end Sys2Proof.Machine
end

section
/-! SUPPORT. The cycle, reset and the host's acts (00_scope.md R10, 60_exceptions.md, 70_reset_and_hazards.md). First what one cycle does
with the word it fetches, by itself and in a Run; then reset and each act of the host. -/

namespace Sys2Proof.Machine

variable {s t : State}

/-! ## One cycle -/

theorem fetchWord_of_bytes {w : Word} (hpc : s.pc.toNat ≤ 4094)
    (hw : w.toNat = 256 * (s.ram.read s.pc.toNat).toNat + (s.ram.read (s.pc.toNat + 1)).toNat) : s.fetchWord? = some w := by
  rw [fetchWord_some s hpc, Option.some.injEq]
  exact BitVec.eq_of_toNat_eq ((toNat_wordOfBytes ..).trans hw.symm)

theorem cycle_of_decode {w : Word} {i : Instr} (hw : s.fetchWord? = some w) (hd : decodeWord w = .ok i) :
    cycle s = exec i (s.startCycle.fetched w) := by
  have hw : s.startCycle.fetchWord? = some w := hw
  simp [cycle, hw, executeWord, hd]

theorem cycle_of_unknown {w : Word} (hw : s.fetchWord? = some w) (hd : ∀ i, decodeWord w ≠ .ok i) : cycle s = .next { s with
    ir := w, pc := s.pc + 2, halted := true, fault := some (.unknownInstruction w s.pc), loadOpen := false } := by
  have hw : s.startCycle.fetchWord? = some w := hw
  have hunknown := (decodeWord_ok_or_unknown w).resolve_left fun ⟨i, hi⟩ => hd i hi
  have hpc0 : (s.startCycle.fetched w).pc0 = s.pc := BitVec.add_sub_cancel ..
  simp only [cycle, hw, executeWord, fetched_ir, hunknown, hpc0]
  rfl

theorem cycle_of_pc_beyond (hpc : s.pc.toNat > 4094) :
    cycle s = .next { s with halted := true, fault := some (.insufficientBytes s.pc), loadOpen := false } := by
  have hw : s.startCycle.fetchWord? = none := fetchWord_none s.startCycle hpc
  simp only [cycle, hw]
  rfl

/-- A cycle that halts the machine, whatever the schedule, is the whole step, and ends its Run. -/
theorem step_of_haltingCycle {rest : List HostEvent} (hs : s.cyclesNext rest) (hhalted : t.halted = true)
    (hcycle : ∀ es, cycle { s with events := es } = .next { t with events := es }) : step s = .next { t with events := rest } := by
  obtain ⟨hh, ⟨he, rfl⟩ | ⟨n, he⟩⟩ := hs
  · have hs : { s with events := [] } = s := by rw [← he]
    rw [step_cycle s he hh, ← hcycle [], hs]
  · rw [step_run_succ s he hh, runOne_of_cycle s (hcycle _), if_pos hhalted]

/-- Settles O8. -/
theorem stepRunsTheDecodedInstruction : Obligations.StepRunsTheDecodedInstruction := by
  intro s w i hh hpc hw hd
  have hf := fetchWord_of_bytes hpc hw
  refine ⟨fun he => ?_, fun n rest he t ht => ?_⟩
  · rw [step_cycle s he hh, cycle_of_decode hf hd]
    rfl
  · rw [step_run_succ s he hh]
    exact runOne_of_cycle s ((cycle_of_decode (s := { s with events := if n = 0 then rest else .run n :: rest }) hf hd).trans ht)

/-- Settles O9. -/
theorem fetchReadsTwoBytesOrFaults : Obligations.FetchReadsTwoBytesOrFaults := by
  refine ⟨fun s rest hs hpc => ?beyond, fun s hpc => ?fetch⟩
  case beyond =>
    exact step_of_haltingCycle (t := { s with halted := true, fault := some (.insufficientBytes s.pc), loadOpen := false }) hs rfl
      fun es => cycle_of_pc_beyond (s := { s with events := es }) hpc
  case fetch => exact ⟨_, fetchWord_some s hpc, toNat_wordOfBytes .., rfl, toNat_pc_add_two (by omega), by constructor <;> simp⟩

/-- Settles O10. -/
theorem unknownInstructionHalts : Obligations.UnknownInstructionHalts := by
  intro s rest w hs hw hd
  exact step_of_haltingCycle
    (t := { s with ir := w, pc := s.pc + 2, halted := true, fault := some (.unknownInstruction w s.pc), loadOpen := false })
    hs rfl fun es => cycle_of_unknown (s := { s with events := es }) hw hd

/-- Settles O11. -/
theorem haltedMachineHasNoStepButReset : Obligations.HaltedMachineHasNoStepButReset := fun s hh =>
  ⟨step_halted s hh, fun _ he => step_reset s he⟩

/-- Settles O13. -/
theorem faultCodesAreOneToSeven : Obligations.FaultCodesAreOneToSeven := fun _ _ _ _ => ⟨rfl, rfl, rfl, rfl, rfl, rfl, rfl⟩

/-! ## Reset -/

/-- Settles O14. -/
theorem resetStartsAtTheProgramBase : Obligations.ResetStartsAtTheProgramBase := ⟨rfl, rfl, rfl, rfl, reset_isLaunch⟩

/-- Byte by byte, since ram lists nothing after reset. -/
theorem readFrom_reset_font : State.reset.ram.readFrom dataOor 0x000 80 = fontBytes := by
  have hlen : fontBytes.length = 80 := rfl
  refine List.ext_getElem? fun k => ?_
  by_cases hk : k < 80
  · have hread : State.reset.ram.read (0 + k) = fontBytes.getD k 0x00 := by rw [Nat.zero_add]; rfl
    rw [getElem?_readFrom _ _ _ _ _ (by omega) hk, hread, List.getD_eq_getElem?_getD, List.getElem?_eq_getElem (by omega),
      Option.getD_some]
  · rw [List.getElem?_eq_none (by rw [length_readFrom]; omega), List.getElem?_eq_none (by omega)]

/-- Settles O15: unlisted ram reads as the font, which ends at 0x04F. -/
theorem resetValuesChosenByTheSpec : Obligations.ResetValuesChosenByTheSpec := by
  refine ⟨fun x => ?reg, rfl, rfl, rfl, rfl, fun k hk => ?slot, fun k => cell_clear k, rfl, fun a ha => ?ram, ?font⟩
  case reg => simp [State.reg, State.reset]
  case slot => simp [State.reset, hk]
  case ram => exact List.getD_eq_default _ _ ha
  case font => exact readFrom_reset_font

/-- Settles O55. -/
theorem resetEventRestoresTheResetState : Obligations.ResetEventRestoresTheResetState := fun s _ he => step_reset s he

/-! ## Loading a program -/

/-- Settles O52. -/
theorem loadCopiesTheProgram : Obligations.LoadCopiesTheProgram := by
  intro s bytes rest hh ho hm he hlen
  have hframe : Frame [.events, .loadOpen] s { s with events := rest, loadOpen := false } := by
    constructor <;> simp [State.reg]
  refine ⟨_, (step_load_open s he hh ho).trans (if_neg (Nat.not_lt.2 hlen)), fun k b hb => ?_, rfl, rfl, ?_⟩
  · exact read_writeFrom_inside hm (by omega) hb
  · exact Frame.trans hframe (frame_writeFrom _ 0x200 bytes) (by simp) fun p hp => by simp [hp]

/-- Settles O53. -/
theorem loadIsBoundedBy3584Bytes : Obligations.LoadIsBoundedBy3584Bytes := by
  intro s bytes rest hh ho he
  have hstep := step_load_open s he hh ho
  refine ⟨fun hlen => hstep.trans (if_pos hlen), fun hlen hm => ?_⟩
  refine ⟨_, hstep.trans (if_neg (by omega)), hh, fun a hlo hhi => ?_⟩
  have hk : a - 0x200 < bytes.length := by omega
  have hb := List.getElem?_eq_getElem hk
  have hread := read_writeFrom_inside hm (a := 0x200) (by omega) hb
  rw [Nat.add_sub_cancel' hlo] at hread
  rw [hb, ← hread]

/-! ## What the acts of the host and a cycle leave alone -/

/-- A cycle writes no key and ends the turn for a Load. -/
theorem cycle_keys_loadOpen (h : cycle s = .next t) : t.keys = s.keys ∧ t.loadOpen = false := by
  obtain ⟨-, hc⟩ | ⟨w, i, -, -, hc⟩ | ⟨w, e, -, -, hc⟩ := cycle_cases s <;> rw [hc] at h
  · cases h
    exact ⟨rfl, rfl⟩
  · have hf := frame_exec h
    exact ⟨hf.keys (by simp [notMem_writesOf]), hf.loadOpen (by simp [notMem_writesOf])⟩
  · cases h
    exact ⟨rfl, rfl⟩

/-- Settles O54. -/
theorem loadOutOfTurnIsRefused : Obligations.LoadOutOfTurnIsRefused := by
  refine ⟨fun s bytes rest hh ho he => ?_, fun s t rest hs h => ?_⟩
  · rw [step_load s he hh, ho]
    rfl
  · obtain ⟨more, u, hu, rfl | rfl⟩ := cyclesNext_step s hs h <;> exact (cycle_keys_loadOpen hu).2

/-- Settles O51. -/
theorem onlySetKeysAndResetWriteTheKeys : Obligations.OnlySetKeysAndResetWriteTheKeys := by
  refine ⟨fun s keys rest hh he => ?setKeys, fun i s t h => ?exec, fun s t h hkeys hreset => ?step⟩
  case setKeys =>
    refine ⟨_, step_setKeys s he hh, fun _ _ => rfl, rfl, ?_⟩
    constructor <;> simp [State.reg]
  case exec => exact (frame_exec h).keys (by simp [notMem_writesOf])
  case step =>
    obtain ⟨rest, he, -⟩ | ⟨-, ⟨-, h⟩ | ⟨rest, -, rfl⟩ | ⟨k, rest, he, -⟩ | ⟨bs, rest, -, -, h⟩ | ⟨rest, -, rfl⟩ |
      ⟨n, rest, -, h⟩⟩ := step_next s h
    · exact absurd he (hreset rest)
    · exact (cycle_keys_loadOpen h).1
    · rfl
    · exact absurd he (hkeys k rest)
    · obtain ⟨-, hl⟩ | ⟨-, hl⟩ := load_cases { s with events := rest } bs <;> rw [hl] at h <;> cases h <;> rfl
    · rfl
    · obtain ⟨u, hu, rfl⟩ := runOne_next s h
      rw [← (cycle_keys_loadOpen hu).1]
      split <;> rfl

/-! ## Ticks -/

theorem toNat_countDown (b : Byte) : (countDown b).toNat = b.toNat - 1 := by
  rw [countDown]
  by_cases hb : b = 0
  · simp [hb]
  · have hpos : 1 ≤ b.toNat := Nat.one_le_iff_ne_zero.2 fun h => hb (BitVec.eq_of_toNat_eq h)
    rw [if_neg hb]
    exact BitVec.toNat_sub_of_le (BitVec.le_def.2 hpos)

theorem frame_ticked (s : State) (es : List HostEvent) : Frame [.dt, .st, .events] s { s.tick with events := es } := by
  constructor <;> simp [State.reg]

/-- Settles O50, by induction on the number of ticks. -/
theorem ticksCountBothTimersDown : Obligations.TicksCountBothTimersDown := by
  intro n
  induction n with
  | zero => exact fun s rest _ he => ⟨s, rfl, rfl, rfl, he, (Frame.refl s).mono (List.nil_subset _)⟩
  | succ n ih =>
    intro s rest hh he
    have hstep := step_tick s he hh
    obtain ⟨t, ht, hdt, hst, hev, hframe⟩ := ih { s.tick with events := List.replicate n .tick ++ rest } rest hh rfl
    refine ⟨t, (run_next s n hstep).trans ht, ?_, ?_, hev, Frame.trans (frame_ticked s _) hframe (by simp) (by simp)⟩
    · rw [hdt, tick_dt, toNat_countDown]
      omega
    · rw [hst, tick_st, toNat_countDown]
      omega

end Sys2Proof.Machine
end

section
/-! SUPPORT. Programs that wait in place: a JUMP to its own address (40_control_flow.md R101) and a KEYD with no key pressed
(44_keys_timers.md R152, 70_reset_and_hazards.md R199), the KEYD also under a schedule of Runs and Ticks, act by act. -/

namespace Sys2Proof.Machine

variable {s t : State}

/-! ## Cycles that leave pc where it was -/

theorem fetchWord_congr (hpc : t.pc = s.pc) (hram : ∀ a, t.ram.read a = s.ram.read a) : t.fetchWord? = s.fetchWord? := by
  simp only [State.fetchWord?, hpc, hram]

/-- A JUMP to its own address leaves pc where it was. -/
theorem cycle_selfJump {w : Word} {nnn : Addr} (hw : s.fetchWord? = some w) (hd : decodeWord w = .ok (.jump nnn))
    (hpc : s.pc.toNat = nnn.toNat) : cycle s = .next { s with ir := w, loadOpen := false } := by
  have htarget : zextAddr nnn = s.pc := BitVec.eq_of_toNat_eq ((toNat_zextAddr nnn).trans hpc.symm)
  rw [cycle_of_decode hw hd, exec_jump, htarget]
  rfl

/-- A KEYD with no key pressed leaves pc where it was. -/
theorem cycle_keyd {w : Word} {x : Reg} (hw : s.fetchWord? = some w) (hd : decodeWord w = .ok (.keyd x)) (hkeys : s.keys = 0) :
    cycle s = .next { s with ir := w, loadOpen := false } := by
  have hback : s.pc + 2 - 2 = s.pc := BitVec.add_sub_cancel ..
  rw [cycle_of_decode hw hd, exec_keyd_none (s := s.startCycle.fetched w) x hkeys, fetched_pc, startCycle_pc, hback]
  rfl

/-- A machine that runs, and whose every cycle writes ir and loadOpen alone, goes on for ever. -/
theorem run_of_cycle_in_place {w : Word} (hs : s.runs)
    (h : ∀ ir l, cycle { s with ir := ir, loadOpen := l } = .next { s with ir := w, loadOpen := false }) (n : Nat) :
    Host.Core.run Sys2Proof.core (n + 1) s = .next { s with ir := w, loadOpen := false } := by
  obtain ⟨he, hh⟩ := hs
  have hstep : ∀ ir l, step { s with ir := ir, loadOpen := l } = .next { s with ir := w, loadOpen := false } := fun ir l =>
    (step_cycle { s with ir := ir, loadOpen := l } he hh).trans (h ir l)
  rw [run_next s n (hstep s.ir s.loadOpen)]
  exact run_stays _ n (hstep w false)

/-- Settles O29. -/
theorem selfJumpRunsForEver : Obligations.SelfJumpRunsForEver := fun s _ _ hs hw hd hpc n =>
  run_of_cycle_in_place hs (fun ir l => cycle_selfJump (s := { s with ir := ir, loadOpen := l }) hw hd hpc) n

/-! ## KEYD under a schedule of Runs and Ticks -/

/-- The machine is at a KEYD, the word w, with no key pressed. -/
structure State.AtKeyd (s : State) (w : Word) : Prop where
  halted : s.halted = false
  fetch : s.fetchWord? = some w
  keys : s.keys = 0

/-- What k ticks and any number of retries of the KEYD w leave: the timers have counted down, and the program is still there. -/
structure Waited (w : Word) (k : Nat) (s t : State) : Prop where
  dt : t.dt.toNat = s.dt.toNat - k
  st : t.st.toNat = s.st.toNat - k
  ir : t.ir = w ∨ t.ir = s.ir
  frame : Frame [.ir, .dt, .st, .events, .loadOpen] s t

theorem Waited.trans {w : Word} {j k : Nat} {u : State} (h : Waited w j s t) (h' : Waited w k t u) : Waited w (j + k) s u where
  dt := by rw [h'.dt, h.dt]; omega
  st := by rw [h'.st, h.st]; omega
  ir := h'.ir.elim .inl fun e => h.ir.imp e.trans e.trans
  frame := h.frame.trans h'.frame (List.Subset.refl _) (List.Subset.refl _)

theorem Waited.atKeyd {w : Word} {k : Nat} (h : Waited w k s t) (hs : s.AtKeyd w) : t.AtKeyd w where
  halted := (h.frame.halted (by simp)).trans hs.halted
  fetch := (fetchWord_congr (h.frame.pc (by simp)) fun a => h.frame.byte a (by simp)).trans hs.fetch
  keys := (h.frame.keys (by simp)).trans hs.keys

theorem waited_tick (w : Word) (s : State) (es : List HostEvent) : Waited w 1 s { s.tick with events := es } where
  dt := toNat_countDown s.dt
  st := toNat_countDown s.st
  ir := .inr rfl
  frame := (frame_ticked s es).mono (by simp)

/-- No retry yet. -/
theorem waited_events (w : Word) (s : State) (es : List HostEvent) : Waited w 0 s { s with events := es } where
  dt := rfl
  st := rfl
  ir := .inr rfl
  frame := by constructor <;> simp [State.reg]

theorem waited_retry (w : Word) (s : State) (es : List HostEvent) :
    Waited w 0 s { s with ir := w, loadOpen := false, events := es } where
  dt := rfl
  st := rfl
  ir := .inl rfl
  frame := by constructor <;> simp [State.reg]

/-- One cycle of a Run is a retry. -/
theorem step_run_keyd {w : Word} {x : Reg} (hd : decodeWord w = .ok (.keyd x)) {n : Nat} {rest : List HostEvent} (hs : s.AtKeyd w)
    (he : s.events = .run (n + 1) :: rest) :
    step s = .next { s with ir := w, loadOpen := false, events := if n = 0 then rest else .run n :: rest } := by
  have hcycle := cycle_keyd (s := { s with events := if n = 0 then rest else .run n :: rest }) hs.fetch hd hs.keys
  rw [step_run_succ s he hs.halted, runOne_of_cycle s hcycle, if_neg (by simp [hs.halted])]

/-- A Run of n + 1 cycles is n + 1 retries. -/
theorem run_keyd {w : Word} {x : Reg} (hd : decodeWord w = .ok (.keyd x)) (n : Nat) {rest : List HostEvent} (hs : s.AtKeyd w)
    (he : s.events = .run (n + 1) :: rest) :
    Host.Core.run Sys2Proof.core (n + 1) s = .next { s with ir := w, loadOpen := false, events := rest } := by
  induction n generalizing s with
  | zero => exact run_next s 0 (step_run_keyd hd hs he)
  | succ n ih =>
    rw [run_next s (n + 1) (step_run_keyd hd hs he)]
    exact ih ((waited_retry w s _).atKeyd hs) rfl

/-- One act, a Tick or a Run: it is performed, and the machine has waited. -/
theorem run_act {w : Word} {x : Reg} (hd : decodeWord w = .ok (.keyd x)) {e : HostEvent} {rest : List HostEvent}
    (hs : s.AtKeyd w) (he : s.events = e :: rest) (hact : e = .tick ∨ ∃ n, e = .run n) :
    ∃ t, Host.Core.run Sys2Proof.core e.steps s = .next t ∧ t.events = rest ∧ Waited w ([e].count .tick) s t := by
  obtain rfl | ⟨_ | n, rfl⟩ := hact
  · exact ⟨_, run_next s 0 (step_tick s he hs.halted), rfl, waited_tick w s rest⟩
  · exact ⟨_, run_next s 0 (step_run_zero s he hs.halted), rfl, waited_events w s rest⟩
  · have hsteps : (HostEvent.run (n + 1)).steps = n + 1 := Nat.max_eq_left (by omega)
    refine ⟨_, ?_, rfl, waited_retry w s rest⟩
    rw [hsteps, run_keyd hd n hs he]

/-- Act by act. -/
theorem run_acts {w : Word} {x : Reg} (hd : decodeWord w = .ok (.keyd x)) {acts rest : List HostEvent} (hs : s.AtKeyd w)
    (he : s.events = acts ++ rest) (hacts : ∀ e ∈ acts, e = .tick ∨ ∃ n, e = .run n) :
    ∃ t, Host.Core.run Sys2Proof.core (acts.map HostEvent.steps).sum s = .next t ∧ t.events = rest ∧
      Waited w (acts.count .tick) s t := by
  induction acts generalizing s with
  | nil => exact ⟨s, rfl, he, waited_events w s s.events⟩
  | cons e acts ih =>
    obtain ⟨t, ht, hte, hwt⟩ := run_act hd hs he (hacts e (List.mem_cons_self ..))
    obtain ⟨u, hu, hue, hwu⟩ := ih (hwt.atKeyd hs) hte fun e' he' => hacts e' (List.mem_cons_of_mem _ he')
    refine ⟨u, ?_, hue, ?_⟩
    · rw [List.map_cons, List.sum_cons, run_add s _ _ ht, hu]
    · rw [← List.singleton_append, List.count_append]
      exact hwt.trans hwu

/-- Settles O48. -/
theorem keydWaitsInPlace : Obligations.KeydWaitsInPlace := by
  refine ⟨fun s w x hs hw hd hkeys n => ?alone, fun s w x acts rest hh he hw hd hkeys hacts => ?acts⟩
  case alone => exact run_of_cycle_in_place hs (fun ir l => cycle_keyd (s := { s with ir := ir, loadOpen := l }) hw hd hkeys) n
  case acts =>
    obtain ⟨t, ht, hte, hwaited⟩ := run_acts hd ⟨hh, hw, hkeys⟩ he hacts
    exact ⟨t, ht, hte, hwaited.dt, hwaited.st, hwaited.ir, hwaited.frame⟩

end Sys2Proof.Machine
end
